-- ==== Sys2Proof/Word.lean ====
section
/-!
DEFINITION. The widths of everything the engine handles (spec/00_scope.md rules R9, R11, R12), the two
directions, and the shape of the substitution table.
-/

namespace Sys2Proof

/-- A 32-bit unsigned value: a half, a subkey, a command's argument, a response (R9, R110). -/
abbrev Word := BitVec 32

/-- A 64-bit block, high half first (R9, R56). -/
abbrev Block := BitVec 64

/-- A command word: OPC in bits 35:32, ARG in bits 31:0 (R70). -/
abbrev Cmd := BitVec 36

/-- A 4-bit nibble, or an entry of the table (R13, R30). -/
abbrev Nibble := BitVec 4

/-- A substitution table: row = a nibble's value, column = its position, 0 the most significant
(R10, R30, R52). -/
abbrev Table := Nibble → Fin 8 → Nibble

/-- The two directions, the source's own names (R83). -/
inductive Dir where
  | encrypt
  | decrypt
deriving DecidableEq, Repr, Inhabited

end Sys2Proof
end

