-- ==== Sys2Proof/Syntax.lean ====
section
/-!
DEFINITION. The commands: one constructor per row of spec/opcode_table.json. Commands that ignore ARG carry it all
the same, so that decoding drops no bit (R72; DESIGN CHOICE, safe, log 8).
-/

namespace Sys2Proof

/-- A command of the port (R71), as its table row gives it. -/
inductive Instr where
  /-- NOP, OPC 0x0, ARG ignored (R140). -/
  | nop (arg : Word)
  /-- KEYW, OPC 0x1, ARG a key word (R91). -/
  | keyw (w : Word)
  /-- BLKW, OPC 0x2, ARG a block word (R141). -/
  | blkw (w : Word)
  /-- ENCRYPT, the word 0x300000000: START with direction code 0 (R126). -/
  | encrypt
  /-- DECRYPT, the word 0x300000001: START with direction code 1 (R127). -/
  | decrypt
  /-- START, OPC 0x3, in the general row: every direction code but 0 and 1 (R78, R125, R128). -/
  | start (d : Word)
  /-- RDST, OPC 0x4, ARG ignored (R142). -/
  | rdst (arg : Word)
  /-- RDOH, OPC 0x5, ARG ignored (R143). -/
  | rdoh (arg : Word)
  /-- RDOL, OPC 0x6, ARG ignored (R144). -/
  | rdol (arg : Word)
  /-- RESERVED_7, OPC 0x7: reserved (R145). -/
  | reserved7 (arg : Word)
  /-- RESERVED_8_F, OPC 0x8 to 0xF, the low three opcode bits being `low`: reserved (R145). -/
  | reserved8F (low : BitVec 3) (arg : Word)
deriving DecidableEq, Repr

end Sys2Proof
end

