-- ==== Sys2Proof/WellFormed.lean ====
section
/-!
DEFINITION. Which terms of `Instr` stand for a command word. The widths are in the types (R61); what is left is
that the general START row is reached with a direction code of 2 or more only (R78).
-/

namespace Sys2Proof

/-- The term is what some command word decodes to: the codes 0 and 1 belong to ENCRYPT and DECRYPT (R78). -/
def Instr.wf : Instr → Bool
  | .nop _ => true
  | .keyw _ => true
  | .blkw _ => true
  | .encrypt => true
  | .decrypt => true
  | .start d => d != 0 && d != 1
  | .rdst _ => true
  | .rdoh _ => true
  | .rdol _ => true
  | .reserved7 _ => true
  | .reserved8F _ _ => true

end Sys2Proof
end

