-- ==== Sys2Proof/Decode.lean ====
section
/-!
DEFINITION. Decoding of command words (R70, R71, R78), the table's rows, the encoder, and the reading of a word
given as a number.
-/

namespace Sys2Proof

/-- OPC = CMD[35:32] (R70). -/
def opcOf (c : Cmd) : BitVec 4 := c.extractLsb' 32 4

/-- ARG = CMD[31:0] (R70). -/
def argOf (c : Cmd) : Word := c.extractLsb' 0 32

/-- What OPC = 0x3 selects: rows ENCRYPT and DECRYPT stand before the general row START (R78). -/
def decodeStart (d : Word) : Instr :=
  if d = 0 then .encrypt else if d = 1 then .decrypt else .start d

/-- The command a command word is: total, selected by OPC alone (R71, R78). -/
def decode (c : Cmd) : Instr :=
  match (opcOf c).toNat with
  | 0 => .nop (argOf c)
  | 1 => .keyw (argOf c)
  | 2 => .blkw (argOf c)
  | 3 => decodeStart (argOf c)
  | 4 => .rdst (argOf c)
  | 5 => .rdoh (argOf c)
  | 6 => .rdol (argOf c)
  | 7 => .reserved7 (argOf c)
  | _ => .reserved8F (c.extractLsb' 32 3) (argOf c)

/-- Why a number is no command word. -/
inductive Reject where
  /-- Raised by `decodeNat`: the value has more than the port's 36 bits, which the port cannot carry (R61, U6).
  Safe: nothing is claimed of it (log 12). -/
  | overWide
deriving DecidableEq, Repr

/-- The command a number is, or the reason it is none. -/
def decodeNat (w : Nat) : Except Reject Instr :=
  if w < 2 ^ 36 then .ok (decode (BitVec.ofNat 36 w)) else .error .overWide

/-- The opcode of a command (R71). -/
def opcodeOf : Instr → BitVec 4
  | .nop _ => 0x0
  | .keyw _ => 0x1
  | .blkw _ => 0x2
  | .encrypt => 0x3
  | .decrypt => 0x3
  | .start _ => 0x3
  | .rdst _ => 0x4
  | .rdoh _ => 0x5
  | .rdol _ => 0x6
  | .reserved7 _ => 0x7
  | .reserved8F low _ => 1#1 ++ low

/-- The argument field of a command (R71, R73). -/
def argumentOf : Instr → Word
  | .nop arg => arg
  | .keyw w => w
  | .blkw w => w
  | .encrypt => 0x00000000
  | .decrypt => 0x00000001
  | .start d => d
  | .rdst arg => arg
  | .rdoh arg => arg
  | .rdol arg => arg
  | .reserved7 arg => arg
  | .reserved8F _ arg => arg

/-- The command word OPC ‖ ARG of a command (R70, R84). -/
def encode (i : Instr) : Cmd := opcodeOf i ++ argumentOf i

/-- A row of spec/opcode_table.json. -/
structure Row where
  mnemonic : String
  mask : Cmd
  pattern : Cmd
deriving DecidableEq, Repr

/-- The rows of spec/opcode_table.json in file order, mask and match as the table gives them (R78). -/
def opcodeTable : List Row :=
  [⟨"NOP", 0xF00000000, 0x000000000⟩,
   ⟨"KEYW", 0xF00000000, 0x100000000⟩,
   ⟨"BLKW", 0xF00000000, 0x200000000⟩,
   ⟨"ENCRYPT", 0xFFFFFFFFF, 0x300000000⟩,
   ⟨"DECRYPT", 0xFFFFFFFFF, 0x300000001⟩,
   ⟨"START", 0xF00000000, 0x300000000⟩,
   ⟨"RDST", 0xF00000000, 0x400000000⟩,
   ⟨"RDOH", 0xF00000000, 0x500000000⟩,
   ⟨"RDOL", 0xF00000000, 0x600000000⟩,
   ⟨"RESERVED_7", 0xF00000000, 0x700000000⟩,
   ⟨"RESERVED_8_F", 0x800000000, 0x800000000⟩]

/-- The mnemonic of the first row that matches the word, as R78 reads the table. -/
def firstRow (c : Cmd) : List Row → Option String
  | [] => none
  | row :: rows => if c &&& row.mask = row.pattern then some row.mnemonic else firstRow c rows

/-- The mnemonic of a command's row in spec/opcode_table.json. -/
def Instr.mnemonic : Instr → String
  | .nop _ => "NOP"
  | .keyw _ => "KEYW"
  | .blkw _ => "BLKW"
  | .encrypt => "ENCRYPT"
  | .decrypt => "DECRYPT"
  | .start _ => "START"
  | .rdst _ => "RDST"
  | .rdoh _ => "RDOH"
  | .rdol _ => "RDOL"
  | .reserved7 _ => "RESERVED_7"
  | .reserved8F _ _ => "RESERVED_8_F"

/-- The instruction the decoder reads from a word of the table: bits `nbits` and up are 0, bit 0 is the least
significant bit (the command word is one 36-bit unit, so there is no byte order in it, R59). -/
def decodeTableWord (nbits w : Nat) : Option Instr :=
  match decodeNat (w % 2 ^ nbits) with
  | .ok i => some i
  | .error _ => none

end Sys2Proof
end

