-- ==== Sys2Proof/Config.lean ====
section
/-!
DEFINITION. What is fixed for one engine and left open by the spec, and the free values. None of these constants
has a body, so a claim about them holds whatever they are.
-/

namespace Sys2Proof

/-- SBOX, the substitution table (R10, R19, R30, decision D1): a constant of the engine, in no state, written by
nothing, with no property assumed beyond its shape. DESIGN CHOICE, safe (log 1). -/
opaque Config.sbox : Table

/-- One less than the number NENG of engines in a system (R11, R169, decision D19: NENG is open and at least 1).
DESIGN CHOICE, safe (log 14). -/
opaque Config.extraEngines : Nat

/-- NENG (R11): at least 1 by its form. -/
def Config.neng : Nat := Config.extraEngines + 1

/-- What K[j] holds after the n-th reset (R40: unspecified, "draw it freely"). DESIGN CHOICE (log 3). -/
opaque Config.freeK : Nat → Fin 8 → Word

/-- What BLKIN[j] holds after the n-th reset (R40: unspecified). DESIGN CHOICE (log 3). -/
opaque Config.freeBlkin : Nat → Fin 2 → Word

/-- What L holds after the n-th reset (R40: unspecified). DESIGN CHOICE (log 3). -/
opaque Config.freeL : Nat → Word

/-- What R holds after the n-th reset (R40: unspecified). DESIGN CHOICE (log 3). -/
opaque Config.freeR : Nat → Word

/-- What OUT holds after the n-th reset (R40: unspecified). DESIGN CHOICE (log 3). -/
opaque Config.freeOut : Nat → Block

/-- What DIRREG holds after the n-th reset (R40: unspecified). DESIGN CHOICE (log 3). -/
opaque Config.freeDir : Nat → Dir

/-- The block whose halves RDOH and RDOL answer while DONE = 0 (R143, R144; U3: "any value"): a free function of the
number of resets so far and of OUT, ERR, KCNT and BCNT, the registers a command may read. DESIGN CHOICE (log 4): where
all of these are equal, in two engines or two runs too, the words answered are equal. -/
opaque Config.freeResult : Nat → Block → BitVec 2 → BitVec 4 → BitVec 2 → Block

end Sys2Proof
end

