-- ==== Sys2Proof/Machine/State.lean ====
section
/-!
DEFINITION. The engine's state (spec/10_state.md rule R20), the reasons a step can stop, and the state after reset
(R40, R180).
-/

namespace Sys2Proof.Machine

/-- PHASE (R29). -/
inductive Phase where
  /-- 0: waiting for a command. -/
  | idle
  /-- 1: a START has passed its checks and its output step has not been executed. -/
  | run
deriving DecidableEq, Repr

/-- The three errors a START can be rejected with, the source's own names (R83, R155). -/
inductive StartError where
  | invalidKeyLength
  | invalidBlockLength
  | invalidDirection
deriving DecidableEq, Repr

/-- The engine's registers (R20), then the host's side of its port and the counter of free values, which are the
model's own. -/
structure State where
  /-- K[0..7], the subkey registers (R21). -/
  k : Vector Word 8
  /-- BLKIN[0..1], the input block, high half first (R22). -/
  blkin : Vector Word 2
  /-- L, the left working half (R23). -/
  l : Word
  /-- R, the right working half (R23). -/
  r : Word
  /-- OUT, the result register (R24). -/
  out : Block
  /-- KCNT, key words received in this invocation, saturating at 15 (R25). -/
  kcnt : BitVec 4
  /-- BCNT, block words received in this invocation, saturating at 3 (R26). -/
  bcnt : BitVec 2
  /-- RND, the round counter, 0..32 (R27). -/
  rnd : BitVec 6
  /-- DIRREG, the direction of the invocation in progress (R28). -/
  dirreg : Dir
  /-- PHASE (R29). -/
  phase : Phase
  /-- DONE: OUT holds a valid result (R31). -/
  done : Bool
  /-- ERR, the error code of the last START (R32). -/
  err : BitVec 2
  /-- The command words the host has issued and the engine has not yet accepted, oldest first (R38, R147; log 5). -/
  port : List Cmd
  /-- The words delivered to the host, oldest first (R14, R74; log 5). -/
  responses : List Word
  /-- The reset input (R180; log 6). -/
  rst : Bool
  /-- How many times the free reset values have been drawn, `State.reset` being draw 0 (log 3). -/
  draws : Nat
deriving DecidableEq, Repr

/-- Why the machine stops. -/
inductive Fault where
  /-- Raised by the engine's own step when PHASE = RUN and RND > 32, for which R34 names no step; R27 says that RND
  never exceeds 32, so no run reaches it. Safe (log 11). -/
  | noEngineStep
deriving DecidableEq, Repr

/-- Why a command has no meaning. -/
inductive Refusal where
  /-- Raised by exec for a command not modelled yet, by its mnemonic; no arm uses it. Safe. -/
  | notModelled (mnemonic : String)
  /-- Raised by RESERVED_7 and RESERVED_8_F: a reserved opcode has no step and is refused (R77, R145). Safe. -/
  | reservedOpcode (opc : BitVec 4)
deriving DecidableEq, Repr

/-- The machine right after reset (R40, R180). The registers R40 calls unspecified hold draw 0 of the free values of
Config (log 3). -/
def State.reset : State where
  k := Vector.ofFn (Config.freeK 0)
  blkin := Vector.ofFn (Config.freeBlkin 0)
  l := Config.freeL 0
  r := Config.freeR 0
  out := Config.freeOut 0
  kcnt := 0
  bcnt := 0
  rnd := 0
  dirreg := Config.freeDir 0
  phase := .idle
  done := false
  err := 0
  port := []
  responses := []
  rst := false
  draws := 1

end Sys2Proof.Machine
end

