-- ==== Sys2Proof/Machine/Flags.lean ====
section
/-!
DEFINITION. The status word, the error codes and the saturating counters. The engine has no arithmetic flag (R105,
R106): DONE and ERR are its only flags (R31, R32).
-/

namespace Sys2Proof.Machine

/-- The code of an error in ERR (R76, R159). -/
def StartError.code : StartError → BitVec 2
  | .invalidKeyLength => 1
  | .invalidBlockLength => 2
  | .invalidDirection => 3

/-- KCNT <- min(KCNT + 1, 15) (R25). -/
def nextKcnt (c : BitVec 4) : BitVec 4 := if c = 15 then 15 else c + 1

/-- BCNT <- min(BCNT + 1, 3) (R26). -/
def nextBcnt (c : BitVec 2) : BitVec 2 := if c = 3 then 3 else c + 1

/-- STATUS = zext(DONE) | zext(ERR) << 1 | zext(KCNT) << 4 | zext(BCNT) << 8 (R75, R142). -/
def statusWord (s : State) : Word :=
  (BitVec.ofBool s.done).setWidth 32 ||| (s.err.setWidth 32 <<< 1) ||| (s.kcnt.setWidth 32 <<< 4)
    ||| (s.bcnt.setWidth 32 <<< 8)

end Sys2Proof.Machine
end

