-- ==== Sys2Proof/Machine/Operands.lean ====
section
/-!
DEFINITION. Operand forms: the direction code of START, nibbles and halves, indices (30_encoding.md rules R73, R79
to R82).
-/

namespace Sys2Proof.Machine

/-- The direction a START's 32-bit code selects; every other code is neither (R73). -/
def dirOfCode (d : Word) : Option Dir :=
  if d = 0x00000000 then some .encrypt else if d = 0x00000001 then some .decrypt else none

/-- The bit DIRREG holds for a direction (R28, R73). -/
def dirCode : Dir → BitVec 1
  | .encrypt => 0
  | .decrypt => 1

/-- The nibble at position `i`, counted from the most significant end: x[31-4i : 28-4i] (R13, R57). -/
def nib (x : Word) (i : Fin 8) : Nibble := x.extractLsb' (28 - 4 * i.val) 4

/-- BLOCK[63:32] (R56). -/
def highHalf (b : Block) : Word := b.extractLsb' 32 32

/-- BLOCK[31:0] (R56). -/
def lowHalf (b : Block) : Word := b.extractLsb' 0 32

/-- hi ‖ lo (R12, R56, R58). -/
def joinHalves (hi lo : Word) : Block := hi ++ lo

/-- The input block BLKIN[0] ‖ BLKIN[1] (R80). -/
def inputBlock (s : State) : Block := joinHalves s.blkin[0] s.blkin[1]

/-- K with its entry number `n` replaced, when there is one (R91). -/
def setKey (k : Vector Word 8) (n : Nat) (w : Word) : Vector Word 8 := k.setIfInBounds n w

/-- BLKIN with its entry number `n` replaced, when there is one (R141). -/
def setBlk (b : Vector Word 2) (n : Nat) (w : Word) : Vector Word 2 := b.setIfInBounds n w

end Sys2Proof.Machine
end

