-- ==== Sys2Proof/Machine/KeySchedule.lean ====
section
/-!
DEFINITION. The KeySchedule (spec/40_key_schedule.md): deriveSubkeys, the two round-key orders, the index-register
form and the subkey fetch, as pure functions.
-/

namespace Sys2Proof.Machine

/-- The value of a bit string, first bit most significant (R55). -/
def bitsToNat (bits : List Bool) : Nat := bits.foldl (fun n b => 2 * n + b.toNat) 0

/-- A word as a bit string, bit 31 first (R12, R55). -/
def wordBits (w : Word) : List Bool := (List.range 32).map fun b => w.getLsbD (31 - b)

/-- The key material K0 ‖ K1 ‖ ... ‖ K7 as a bit string (R55, R79). -/
def keyMaterial (k : Vector Word 8) : List Bool := k.toList.flatMap wordBits

/-- `deriveSubkeys` (R90): a key of exactly 256 bits, first bit = bit 255, partitioned into eight words
K[j] = KEY[255-32j : 224-32j]; any other length is InvalidKeyLength (C3). -/
def deriveSubkeys (keyBits : List Bool) : Except StartError (Vector Word 8) :=
  if keyBits.length = 256 then
    let key : BitVec 256 := BitVec.ofNat 256 (bitsToNat keyBits)
    .ok (Vector.ofFn fun j => key.extractLsb' (224 - 32 * j.val) 32)
  else .error .invalidKeyLength

/-- The encrypt order in full (R94). -/
def orderEnc : Vector (Fin 8) 32 :=
  #v[0, 1, 2, 3, 4, 5, 6, 7, 0, 1, 2, 3, 4, 5, 6, 7, 0, 1, 2, 3, 4, 5, 6, 7, 7, 6, 5, 4, 3, 2, 1, 0]

/-- The decrypt order in full (R95). -/
def orderDec : Vector (Fin 8) 32 :=
  #v[0, 1, 2, 3, 4, 5, 6, 7, 7, 6, 5, 4, 3, 2, 1, 0, 7, 6, 5, 4, 3, 2, 1, 0, 7, 6, 5, 4, 3, 2, 1, 0]

/-- `roundKeyOrder` (R93): determined by the direction alone. -/
def roundKeyOrder : Dir → Vector (Fin 8) 32
  | .encrypt => orderEnc
  | .decrypt => orderDec

/-- The index used in round `i` (R98); rounds are 0..31, and the round step asks for no other. -/
def subkeyIndex (d : Dir) (i : Nat) : Fin 8 := (roundKeyOrder d)[i % 32]'(Nat.mod_lt i (by decide))

/-- The subkey fetch K[roundKeyOrder(d)[i]] (R98). -/
def fetchSubkey (k : Vector Word 8) (d : Dir) (i : Nat) : Word := k[subkeyIndex d i]

/-- The index-register form (R97): the index used in round `i` from the index used in the round before it. -/
def kidxNext (d : Dir) (i : Nat) (prev : Fin 8) : Fin 8 :=
  match d with
  | .encrypt => if i = 0 then 0 else if i ≤ 22 then prev + 1 else if i ≤ 24 then 7 else prev - 1
  | .decrypt =>
    if i = 0 then 0 else if i ≤ 6 then prev + 1 else if i ≤ 8 then 7 else if prev = 0 then 7 else prev - 1

/-- KIDX in round `i`, run from round 0 (R97). -/
def kidx (d : Dir) : Nat → Fin 8
  | 0 => kidxNext d 0 0
  | i + 1 => kidxNext d (i + 1) (kidx d i)

end Sys2Proof.Machine
end

