-- ==== Sys2Proof/Machine/RoundFunction.lean ====
section
/-!
DEFINITION. The round function (spec/41_round_function.md): add, substitute, rotate, combine. It takes the table as
an argument, so that a claim can be made of every table.
-/

namespace Sys2Proof.Machine

/-- Add (R106): modulo 2^32, the carry recorded nowhere. -/
def addStep (right subkey : Word) : Word := right + subkey

/-- Substitute (R107): lane `i` is table[nibble at i][i]; the eight outputs are concatenated most significant
first. -/
def substitute (sum : Word) (table : Table) : Word :=
  table (nib sum 0) 0 ++ table (nib sum 1) 1 ++ table (nib sum 2) 2 ++ table (nib sum 3) 3 ++
    table (nib sum 4) 4 ++ table (nib sum 5) 5 ++ table (nib sum 6) 6 ++ table (nib sum 7) 7

/-- rotl32(x, n) = ((x << n) | (x >> (32-n)))[31:0] for 0 < n < 32 (R14). -/
def rotl32 (x : Word) (n : Nat) : Word := (x <<< n) ||| (x >>> (32 - n))

/-- Rotate (R108): to the left by the constant 11 (C4, U9; log 9). -/
def rotateStep (x : Word) : Word := rotl32 x 11

/-- F(r, k, t) (R111): what is xor-ed with the left half. -/
def mixRight (right subkey : Word) (table : Table) : Word :=
  rotateStep (substitute (addStep right subkey) table)

/-- `roundFunction` (R105): the four steps, the last being the combine (R109). -/
def roundFunction (left right subkey : Word) (table : Table) : Word :=
  mixRight right subkey table ^^^ left

end Sys2Proof.Machine
end

