-- ==== Sys2Proof/Machine/Gost.lean ====
section
/-!
DEFINITION. The whole invocation as a pure function (spec/42_feistel_engine.md rule R120).
-/

namespace Sys2Proof.Machine

/-- The two halves after rounds 0 .. n-1 (R120, R122, R123): newL = R, newR = the round function. -/
def halvesAfter (table : Table) (k : Vector Word 8) (d : Dir) (start : Word × Word) : Nat → Word × Word
  | 0 => start
  | n + 1 =>
    let lr := halvesAfter table k d start n
    (lr.2, roundFunction lr.1 lr.2 (fetchSubkey k d n) table)

/-- `GOST(block, key, dir, table)` (R120): 32 rounds from L = high, R = low (R121); the output is R ‖ L (R124). -/
def gost (block : Block) (k : Vector Word 8) (d : Dir) (table : Table) : Block :=
  let lr := halvesAfter table k d (highHalf block, lowHalf block) 32
  joinHalves lr.2 lr.1

/-- `encrypt(B, K) = GOST(B, K, encrypt, SBOX)` (R120). -/
def encryptBlock (block : Block) (k : Vector Word 8) : Block := gost block k .encrypt Config.sbox

/-- `decrypt(B, K) = GOST(B, K, decrypt, SBOX)` (R120). -/
def decryptBlock (block : Block) (k : Vector Word 8) : Block := gost block k .decrypt Config.sbox

end Sys2Proof.Machine
end

