-- ==== Sys2Proof/Machine/Ops.lean ====
section
/-!
DEFINITION. The named operations over the state: writing key and block words, responding, rejecting a START (the
engine's exception entry, R160), the engine's own steps (R122, R124), the whole of a START in both readings (R125,
R134, R135), the reset event (R180), and what the host does at the port.
-/

namespace Sys2Proof.Machine

/-- Take one key word (R91): write K[KCNT] when KCNT < 8, count it in any case. -/
def takeKeyWord (w : Word) (s : State) : State :=
  { s with
    k := if s.kcnt.toNat < 8 then setKey s.k s.kcnt.toNat w else s.k
    kcnt := nextKcnt s.kcnt }

/-- Take one block word (R141): write BLKIN[BCNT] when BCNT < 2, count it in any case. -/
def takeBlockWord (w : Word) (s : State) : State :=
  { s with
    blkin := if s.bcnt.toNat < 2 then setBlk s.blkin s.bcnt.toNat w else s.blkin
    bcnt := nextBcnt s.bcnt }

/-- `respond v` (R14, R74): deliver one word to the host. -/
def respond (v : Word) (s : State) : State := { s with responses := s.responses ++ [v] }

/-- The block whose halves RDOH and RDOL answer (R143, R144): OUT when DONE = 1; while DONE = 0 a free block, which no
read and no NOP changes (R66). DESIGN CHOICE (log 4): the free block is one function of the reset count, OUT, ERR,
KCNT and BCNT, so two engines, two runs or two reads at which these are equal answer the same word. -/
def readableResult (s : State) : Block :=
  if s.done then s.out else Config.freeResult s.draws s.out s.err s.kcnt s.bcnt

/-- The first lines of START (R125): clear DONE and ERR (R31, R32), consume the counters (R25, R26). -/
def consumeInvocation (s : State) : State := { s with done := false, err := 0, kcnt := 0, bcnt := 0 }

/-- `raise E` (R160): the code goes to ERR and the command ends; nothing is saved and control goes nowhere. There is
no return operation (R163): the next START or reset clears ERR. -/
def raise (e : StartError) (s : State) : State := { s with err := e.code }

/-- The three checks of START on the counts it found and its code, the first that fails being reported (R125, R156
to R158, R162). -/
def startChecks (kc : BitVec 4) (bc : BitVec 2) (d : Word) : Except StartError Dir :=
  if kc ≠ 8 then .error .invalidKeyLength
  else if bc ≠ 2 then .error .invalidBlockLength
  else match dirOfCode d with
    | none => .error .invalidDirection
    | some dir => .ok dir

/-- Initialisation of an accepted START (R121, R125). -/
def beginRun (dir : Dir) (s : State) : State :=
  { s with dirreg := dir, l := s.blkin[0], r := s.blkin[1], rnd := 0, phase := .run }

/-- `roundStep` (R122): both halves are computed from the old ones. -/
def roundStep (table : Table) (s : State) : State :=
  { s with
    l := s.r
    r := roundFunction s.l s.r (fetchSubkey s.k s.dirreg s.rnd.toNat) table
    rnd := s.rnd + 1 }

/-- `outputStep` (R124): OUT <- R ‖ L. -/
def outputStep (s : State) : State := { s with out := joinHalves s.r s.l, done := true, phase := .idle }

/-- `n` round steps (R123). -/
def roundSteps (table : Table) : Nat → State → State
  | 0, s => s
  | n + 1, s => roundSteps table n (roundStep table s)

/-- The engine's own step while PHASE = RUN (R34, R134): a round step while RND < 32, the output step at RND = 32,
and no step beyond (log 11). -/
def engineStep (table : Table) (s : State) : Host.Outcome State Fault Refusal :=
  if s.rnd.toNat < 32 then .next (roundStep table s)
  else if s.rnd.toNat = 32 then .next (outputStep s)
  else .fault .noEngineStep

/-- START up to PHASE <- RUN, the host's part of it in the small-step reading (R134). -/
def acceptStart (d : Word) (s : State) : State :=
  match startChecks s.kcnt s.bcnt d with
  | .error e => raise e (consumeInvocation s)
  | .ok dir => beginRun dir (consumeInvocation s)

/-- START whole, as one step (R125, R135): checks, initialisation, 32 round steps, output step. -/
def startWhole (table : Table) (d : Word) (s : State) : State :=
  match startChecks s.kcnt s.bcnt d with
  | .error e => raise e (consumeInvocation s)
  | .ok dir => outputStep (roundSteps table 32 (beginRun dir (consumeInvocation s)))

/-- The reset event (R180, R40): six registers get their values, six become unspecified (a new draw, log 3), SBOX is
no state. An invocation in progress is abandoned. The host's lists stay as they are (log 5). -/
def resetEvent (s : State) : State :=
  { s with
    kcnt := 0, bcnt := 0, done := false, err := 0, phase := .idle, rnd := 0
    k := Vector.ofFn (Config.freeK s.draws)
    blkin := Vector.ofFn (Config.freeBlkin s.draws)
    l := Config.freeL s.draws
    r := Config.freeR s.draws
    dirreg := Config.freeDir s.draws
    out := Config.freeOut s.draws
    rst := false
    draws := s.draws + 1 }

/-- The host issues a command word: it waits at the port behind those already there (R64, R147). -/
def offer (c : Cmd) (s : State) : State := { s with port := s.port ++ [c] }

/-- Reset is asserted (R180). -/
def assertReset (s : State) : State := { s with rst := true }

end Sys2Proof.Machine
end

