-- ==== Sys2Proof/Machine/KeyCommands.lean ====
section
/-!
DEFINITION. The key schedule's command: KEYW (spec/40_key_schedule.md rule R91).
-/

namespace Sys2Proof.Machine

/-- KEYW w (R91): the ninth and later words are discarded and still counted; DONE and ERR stay. -/
def execKeyw (w : Word) (s : State) : Host.Outcome State Fault Refusal := .next (takeKeyWord w s)

end Sys2Proof.Machine
end

