-- ==== Sys2Proof/Machine/PortCommands.lean ====
section
/-!
DEFINITION. The host interface commands: NOP, BLKW, RDST, RDOH, RDOL and the reserved opcodes
(spec/43_host_commands.md rules R140 to R145).
-/

namespace Sys2Proof.Machine

/-- NOP (R140): no effect; ARG is ignored (R72). -/
def execNop (_arg : Word) (s : State) : Host.Outcome State Fault Refusal := .next s

/-- BLKW w (R141): the third and later words are discarded and still counted; DONE and ERR stay. -/
def execBlkw (w : Word) (s : State) : Host.Outcome State Fault Refusal := .next (takeBlockWord w s)

/-- RDST (R142): respond STATUS; ARG is ignored. -/
def execRdst (_arg : Word) (s : State) : Host.Outcome State Fault Refusal :=
  .next (respond (statusWord s) s)

/-- RDOH (R143): respond OUT[63:32]; with DONE = 0 the word is free (log 4); ARG is ignored. -/
def execRdoh (_arg : Word) (s : State) : Host.Outcome State Fault Refusal :=
  .next (respond (highHalf (readableResult s)) s)

/-- RDOL (R144): respond OUT[31:0]; with DONE = 0 the word is free (log 4); ARG is ignored. -/
def execRdol (_arg : Word) (s : State) : Host.Outcome State Fault Refusal :=
  .next (respond (lowHalf (readableResult s)) s)

/-- Opcode 0x7 (R145): no step; refused by name. -/
def execReserved7 (_arg : Word) (_s : State) : Host.Outcome State Fault Refusal :=
  .refused (.reservedOpcode 0x7)

/-- Opcodes 0x8 to 0xF (R145): no step; refused by name. -/
def execReserved8F (low : BitVec 3) (_arg : Word) (_s : State) : Host.Outcome State Fault Refusal :=
  .refused (.reservedOpcode (1#1 ++ low))

end Sys2Proof.Machine
end

