-- ==== Sys2Proof/Machine/StartCommands.lean ====
section
/-!
DEFINITION. The commands of the FeistelEngine: ENCRYPT, DECRYPT and START (spec/42_feistel_engine.md rules R125 to
R128), each the whole of R125 as one step (R63, R135; log 2).
-/

namespace Sys2Proof.Machine

/-- ENCRYPT = START 0x00000000 (R126). -/
def execEncrypt (s : State) : Host.Outcome State Fault Refusal :=
  .next (startWhole Config.sbox 0x00000000 s)

/-- DECRYPT = START 0x00000001 (R127). -/
def execDecrypt (s : State) : Host.Outcome State Fault Refusal :=
  .next (startWhole Config.sbox 0x00000001 s)

/-- START d (R125, R128). -/
def execStart (d : Word) (s : State) : Host.Outcome State Fault Refusal :=
  .next (startWhole Config.sbox d s)

end Sys2Proof.Machine
end

