-- ==== Sys2Proof/Machine/Dispatch.lean ====
section
/-!
DEFINITION. One arm per constructor of Instr.
-/

namespace Sys2Proof.Machine

def exec (i : Instr) (s : State) : Host.Outcome State Fault Refusal :=
  match i with
  | .nop arg => Sys2Proof.Machine.execNop arg s
  | .keyw w => Sys2Proof.Machine.execKeyw w s
  | .blkw w => Sys2Proof.Machine.execBlkw w s
  | .encrypt => Sys2Proof.Machine.execEncrypt s
  | .decrypt => Sys2Proof.Machine.execDecrypt s
  | .start d => Sys2Proof.Machine.execStart d s
  | .rdst arg => Sys2Proof.Machine.execRdst arg s
  | .rdoh arg => Sys2Proof.Machine.execRdoh arg s
  | .rdol arg => Sys2Proof.Machine.execRdol arg s
  | .reserved7 arg => Sys2Proof.Machine.execReserved7 arg s
  | .reserved8F low arg => Sys2Proof.Machine.execReserved8F low arg s

end Sys2Proof.Machine
end

