-- ==== Sys2Proof/Machine/Step.lean ====
section
/-!
DEFINITION. One step of the engine (R34): reset when it is asserted, the engine's own step while PHASE = RUN, else
the oldest command at the port; with none there, the engine waits.
-/

namespace Sys2Proof.Machine

/-- What is executed next (R34). A command at the port is accepted only while PHASE = IDLE (R147); reset may come at
any time (R180; log 6); an idle engine with no command waits (R29, R160; log 7). -/
def step (s : State) : Host.Outcome State Fault Refusal :=
  if s.rst then .next (resetEvent s)
  else match s.phase with
    | .run => engineStep Config.sbox s
    | .idle => match s.port with
      | [] => .next s
      | c :: rest => exec (decode c) { s with port := rest }

/-- The command word of the table (see `decodeTableWord`) as the next one at the port of an idle engine (log 8). A
number the port cannot carry (R61) is not put there. -/
def State.withFetchWord (s : State) (nbits w : Nat) : State :=
  match decodeNat (w % 2 ^ nbits) with
  | .ok _ => { s with port := BitVec.ofNat 36 (w % 2 ^ nbits) :: s.port, phase := .idle, rst := false }
  | .error _ => s

end Sys2Proof.Machine
end

