-- ==== Sys2Proof/Machine/Engines.lean ====
section
/-!
DEFINITION. NENG engines side by side (R11, R67, R169, decision D19): each has its own state and its own port, they
share the read-only SBOX and nothing else, and each step of the whole is a step of one of them (log 14).
-/

namespace Sys2Proof.Machine

/-- The engines of a system, by position; an engine knows nothing of its position (R169). -/
abbrev Engines := Vector State Config.neng

/-- All engines start in the same reset state (R169). -/
def enginesReset : Engines := Vector.replicate Config.neng State.reset

/-- Engine `e` takes a step; the others stay. A fault or a refusal of one stops the account of the whole (log 14). -/
def stepEngine (e : Fin Config.neng) (es : Engines) : Host.Outcome Engines Fault Refusal :=
  match step es[e] with
  | .next s => .next (es.set e s)
  | .fault f => .fault f
  | .refused x => .refused x

/-- The engines take steps in the order of a schedule (R67: "any interleaving"). -/
def runSchedule : List (Fin Config.neng) → Engines → Host.Outcome Engines Fault Refusal
  | [], es => .next es
  | e :: rest, es =>
    match stepEngine e es with
    | .next es' => runSchedule rest es'
    | .fault f => .fault f
    | .refused x => .refused x

end Sys2Proof.Machine
end

