-- ==== Sys2Proof/Machine/Script.lean ====
section
/-!
DEFINITION. The text form of command streams and the pseudo-commands (spec/30_encoding.md rules R84, R85). It is how
command streams are written down, not a part of the engine.
-/

namespace Sys2Proof.Machine

/-- The pseudo-commands (R85). -/
inductive Pseudo where
  | encrypt
  | decrypt
  | loadKey (k : Vector Word 8)
  | loadBlk (hi lo : Word)
  | rdOut
deriving DecidableEq, Repr

/-- What a pseudo-command stands for (R85). -/
def expand : Pseudo → List Instr
  | .encrypt => [.encrypt]
  | .decrypt => [.decrypt]
  | .loadKey k =>
    [.keyw k[0], .keyw k[1], .keyw k[2], .keyw k[3], .keyw k[4], .keyw k[5], .keyw k[6], .keyw k[7]]
  | .loadBlk hi lo => [.blkw hi, .blkw lo]
  | .rdOut => [.rdoh 0, .rdol 0]

/-- The pseudo-command that starts a direction (R85). -/
def startOf : Dir → Pseudo
  | .encrypt => .encrypt
  | .decrypt => .decrypt

/-- One call of the source's `run` at the port: LOADKEY, LOADBLK, ENCRYPT or DECRYPT, RDOUT (R85, R183). -/
def invocation (k : Vector Word 8) (hi lo : Word) (d : Dir) : List Instr :=
  expand (.loadKey k) ++ expand (.loadBlk hi lo) ++ expand (startOf d) ++ expand .rdOut

/-- A hexadecimal digit, the letters being capitals (R84; log 15): the ten digits follow one another from '0' on, the
six letters from 'A' on. -/
def hexDigit (n : Nibble) : Char :=
  if n < 10 then Char.ofNat ('0'.toNat + n.toNat) else Char.ofNat ('A'.toNat + (n.toNat - 10))

/-- The nibble a character is the digit of, if there is one. -/
def digitValue (c : Char) : Option Nibble := ((List.range 16).map (BitVec.ofNat 4)).find? fun n => hexDigit n = c

/-- An operand: ARG as 0x and eight hexadecimal digits, the nibble at position 0 first (R84, R13). -/
def operandText (w : Word) : List Char := ['0', 'x'] ++ (List.finRange 8).map fun i => hexDigit (nib w i)

/-- An operand read back, digit by digit from the most significant; any other text is none. -/
def operandValue : List Char → Option Word
  | '0' :: 'x' :: digits => do
    let nibbles ← digits.mapM digitValue
    if nibbles.length = 8 then pure (nibbles.foldl (fun w n => (w <<< 4) ||| n.setWidth 32) 0) else none
  | _ => none

/-- The words of a line: what stands between spaces and commas, up to the comment (R84). -/
def lineWords : List Char → List Char → List (List Char)
  | [], [] => []
  | [], word => [word]
  | c :: rest, word =>
    if c = ';' then (if word = [] then [] else [word])
    else if c = ' ' ∨ c = ',' then (if word = [] then lineWords rest [] else word :: lineWords rest [])
    else lineWords rest (word ++ [c])

/-- Eight operands in a row. -/
def eightOperands (ops : List (List Char)) : Option (Vector Word 8) := do
  let ws ← ops.mapM operandValue
  if h : ws.length = 8 then pure ⟨ws.toArray, by simp [h]⟩ else none

/-- A note of the expected responses after a read command, `-> 0xHHHHHHHH`, or nothing (R84). -/
def isNote : List (List Char) → Bool
  | [] => true
  | ['-', '>'] :: w :: rest => (w :: rest).all fun w => (operandValue w).isSome
  | _ => false

/-- The commands a line of words is, pseudo-commands expanded; a line without words is none at all (R84, R85). -/
def readWords : List (List Char) → Option (List Instr)
  | [] => some []
  | ['N', 'O', 'P'] :: [] => some [.nop 0]
  | ['K', 'E', 'Y', 'W'] :: [w] => (operandValue w).map fun w => [.keyw w]
  | ['B', 'L', 'K', 'W'] :: [w] => (operandValue w).map fun w => [.blkw w]
  | ['S', 'T', 'A', 'R', 'T'] :: [w] => (operandValue w).map fun w => [decodeStart w]
  | ['R', 'D', 'S', 'T'] :: note => if isNote note then some [.rdst 0] else none
  | ['R', 'D', 'O', 'H'] :: note => if isNote note then some [.rdoh 0] else none
  | ['R', 'D', 'O', 'L'] :: note => if isNote note then some [.rdol 0] else none
  | ['E', 'N', 'C', 'R', 'Y', 'P', 'T'] :: [] => some (expand .encrypt)
  | ['D', 'E', 'C', 'R', 'Y', 'P', 'T'] :: [] => some (expand .decrypt)
  | ['R', 'D', 'O', 'U', 'T'] :: note => if isNote note then some (expand .rdOut) else none
  | ['L', 'O', 'A', 'D', 'B', 'L', 'K'] :: [hi, lo] => do
    let hi ← operandValue hi
    let lo ← operandValue lo
    pure (expand (.loadBlk hi lo))
  | ['L', 'O', 'A', 'D', 'K', 'E', 'Y'] :: ops => (eightOperands ops).map fun k => expand (.loadKey k)
  | _ => none

/-- The command words of one line of script (R84): none where the line is not of the script's form. -/
def assembleLine (line : List Char) : Option (List Cmd) := (readWords (lineWords line [])).map (List.map encode)

/-- A command word as nine hexadecimal digits (R84): that of OPC, then those of ARG. -/
def encodingText (c : Cmd) : List Char :=
  hexDigit (opcOf c) :: (List.finRange 8).map fun i => hexDigit (nib (argOf c) i)

/-- The command with the ARG a script line gives it: 0 where ARG is ignored (R84). -/
def scriptForm : Instr → Instr
  | .nop _ => .nop 0
  | .keyw w => .keyw w
  | .blkw w => .blkw w
  | .encrypt => .encrypt
  | .decrypt => .decrypt
  | .start d => .start d
  | .rdst _ => .rdst 0
  | .rdoh _ => .rdoh 0
  | .rdol _ => .rdol 0
  | .reserved7 arg => .reserved7 arg
  | .reserved8F low arg => .reserved8F low arg

/-- The script form of a command (R84): without operand where ARG is ignored; a reserved word has no form. -/
def scriptLine : Instr → Option (List Char)
  | .nop _ => some ['N', 'O', 'P']
  | .keyw w => some (['K', 'E', 'Y', 'W', ' '] ++ operandText w)
  | .blkw w => some (['B', 'L', 'K', 'W', ' '] ++ operandText w)
  | .encrypt => some ['E', 'N', 'C', 'R', 'Y', 'P', 'T']
  | .decrypt => some ['D', 'E', 'C', 'R', 'Y', 'P', 'T']
  | .start d => some (['S', 'T', 'A', 'R', 'T', ' '] ++ operandText d)
  | .rdst _ => some ['R', 'D', 'S', 'T']
  | .rdoh _ => some ['R', 'D', 'O', 'H']
  | .rdol _ => some ['R', 'D', 'O', 'L']
  | .reserved7 _ => none
  | .reserved8F _ _ => none

end Sys2Proof.Machine
end

