-- ==== Sys2Proof/Machine/Stream.lean ====
section
/-!
DEFINITION. Several steps of the machine, and a list of commands executed in order (spec/20_memory.md rules R63,
R64): each one whole before the next.
-/

namespace Sys2Proof.Machine

/-- `n` steps of the machine behind the host's interface, stopping at the first fault or refusal. -/
def runFor (n : Nat) (s : State) : Host.Outcome State Fault Refusal := Host.Core.run Sys2Proof.core n s

/-- The commands in the order issued, each to completion before the next; the first that stops, stops the list. -/
def execAll : List Instr → State → Host.Outcome State Fault Refusal
  | [], s => .next s
  | i :: rest, s =>
    match exec i s with
    | .next t => execAll rest t
    | .fault f => .fault f
    | .refused x => .refused x

end Sys2Proof.Machine
end

