-- ==== Sys2Proof/Safety.lean ====
section
/-!
DEFINITION. What claims mean by a state in good order and by a step that does not go wrong.
-/

namespace Sys2Proof.Machine

/-- The relations between registers that the spec gives, of every state a run can reach. -/
structure State.Inv (s : State) : Prop where
  /-- RND never exceeds 32 (R27). -/
  rnd_le : s.rnd.toNat ≤ 32
  /-- DONE = 1 implies ERR = 0, and ERR ≠ 0 implies DONE = 0 (R75). -/
  done_err : s.done = true → s.err = 0
  /-- DONE = 1 says that 32 rounds and the output step have run: PHASE = IDLE and OUT = R ‖ L (R24, R31, R124). -/
  done_out : s.done = true → s.phase = .idle ∧ s.rnd = 32 ∧ s.out = joinHalves s.r s.l
  /-- Until the next word is loaded, OUT is GOST of the registers the invocation was run on (R120, R125). -/
  done_result : s.done = true → s.kcnt = 0 → s.bcnt = 0 →
    s.out = gost (inputBlock s) s.k s.dirreg Config.sbox
  /-- A run has consumed its counters and cleared its flags (R125). -/
  run_clear : s.phase = .run → s.kcnt = 0 ∧ s.bcnt = 0 ∧ s.done = false ∧ s.err = 0
  /-- During a run L and R are the halves after the rounds done so far (R121, R122, R123). -/
  run_halves : s.phase = .run →
    (s.l, s.r) = halvesAfter Config.sbox s.k s.dirreg (s.blkin[0], s.blkin[1]) s.rnd.toNat

/-- A step that does not fault. -/
def Faultless (o : Host.Outcome State Fault Refusal) : Prop := ∀ f, o ≠ .fault f

end Sys2Proof.Machine
end

