-- ==== Sys2Proof/Certificates/Slice0/Obligations.lean ====
section
/-!
DEFINITION. The statements for the provers. `R<n>` is a rule of spec/, `log <n>` a row of notes/assumptions/.
-/

open Sys2Proof Sys2Proof.Machine

/-! ## Encoding -/

/-- Words written out from 30_encoding.md R71, R73, R84 and the scripts of 95_test_vectors.md, and what they are. -/
def Obligations.SpecWordsDecodeToTheirCommands : Prop :=
  decode 0x000000000 = .nop 0 ∧ decode 0x101234567 = .keyw 0x01234567 ∧ decode 0x289ABCDEF = .blkw 0x89ABCDEF ∧
    decode 0x300000000 = .encrypt ∧ decode 0x300000001 = .decrypt ∧ decode 0x300000005 = .start 5 ∧
    decode 0x400000000 = .rdst 0 ∧ decode 0x500000000 = .rdoh 0 ∧ decode 0x600000000 = .rdol 0 ∧
    decode 0x700000000 = .reserved7 0 ∧ decode 0xF00000001 = .reserved8F 7 1

/-- Decode and encode agree, for every well-formed command and every value of its operands. -/
def Obligations.DecodeOfEncodeIsTheCommand : Prop :=
  ∀ i : Instr, i.wf = true → decode (encode i) = i

/-- The other direction: every command word is the encoding of the well-formed command it decodes to. -/
def Obligations.EncodeOfDecodeIsTheWord : Prop :=
  ∀ c : Cmd, (decode c).wf = true ∧ encode (decode c) = c

/-- R78: OPC alone selects the command; ARG changes only, for START, which direction or error results; the decoder
takes the first row of the table that matches; every word has one; the general START row is reached only with
ARG >= 2. -/
def Obligations.DecodeTakesTheFirstMatchingRow : Prop :=
  (∀ c : Cmd, firstRow c opcodeTable = some (decode c).mnemonic) ∧
  (∀ (o : BitVec 4) (a b : Word), o ≠ 3 → (decode (o ++ a)).mnemonic = (decode (o ++ b)).mnemonic) ∧
  (∀ a : Word, (decode (3#4 ++ a)).mnemonic =
    if a = 0 then "ENCRYPT" else if a = 1 then "DECRYPT" else "START") ∧
  (∀ c : Cmd, (decode c).mnemonic = "START" → opcOf c = 3 ∧ 2 ≤ (argOf c).toNat)

/-- A number of more than 36 bits is no command word (R61, U6; the refusal by name is the model's, log 12); every
other number is one. -/
def Obligations.OverWideNumbersAreRejectedByName : Prop :=
  ∀ w : Nat, (2 ^ 36 ≤ w → decodeNat w = .error .overWide) ∧
    (w < 2 ^ 36 → decodeNat w = .ok (decode (BitVec.ofNat 36 w)))

/-- R84: a line written in script form assembles to the command's word (ARG = 0 where it is ignored), a comment after
it changing nothing (the strictness of the reader is the model's choice, log 15). -/
def Obligations.ScriptLineAssemblesToItsWord : Prop :=
  ∀ (i : Instr) (line comment : List Char), i.wf = true → scriptLine i = some line →
    assembleLine line = some [encode (scriptForm i)] ∧
      assembleLine (line ++ ' ' :: ';' :: comment) = some [encode (scriptForm i)]

/-! ## The step -/

/-- A step of an idle engine runs the decoded command at the head of its port, with the word taken off the port. -/
def Obligations.StepRunsTheDecodedCommand : Prop :=
  ∀ (s : State) (i : Instr) (rest : List Cmd), s.rst = false → s.phase = .idle → i.wf = true →
    s.port = encode i :: rest → step s = exec i { s with port := rest }

/-- An idle engine with nothing at its port waits (the model's reading of R29 and R160, log 7). -/
def Obligations.IdleEngineWaitsForACommand : Prop :=
  ∀ s : State, s.rst = false → s.phase = .idle → s.port = [] → step s = .next s

/-- The word placed by withFetchWord is the one the very next step runs (log 8). -/
def Obligations.PlacedWordRunsNext : Prop :=
  ∀ (s : State) (c : Cmd),
    step (s.withFetchWord 36 c.toNat) = exec (decode c) { s with phase := .idle, rst := false }

/-- 20_memory.md R63, R64: one stream of commands is executed strictly in the order issued, each to completion before
the next. The count of steps, one a command, a START among them, is that of the model's choice to take START whole
(log 2). -/
def Obligations.PortStreamIsExecutedInOrder : Prop :=
  ∀ (is : List Instr) (s : State) (rest : List Cmd), (∀ i ∈ is, i.wf = true) → s.rst = false → s.phase = .idle →
    s.port = is.map encode ++ rest →
      runFor is.length s = execAll is { s with port := rest }

/-- R147: while PHASE = RUN a command offered is held at the port: no register but those of the rounds and the
output step changes, the run goes on as without it, and the command is executed as soon as the run has ended. -/
def Obligations.CommandIsHeldWhileRunning : Prop :=
  ∀ (s : State) (c : Cmd), s.rst = false → s.phase = .run → s.rnd.toNat ≤ 32 →
    (∃ t, step s = .next t ∧ step (offer c s) = .next (offer c t) ∧ t.port = s.port ∧
      t.responses = s.responses ∧ t.k = s.k ∧ t.blkin = s.blkin ∧ t.kcnt = s.kcnt ∧ t.bcnt = s.bcnt ∧
      t.dirreg = s.dirreg ∧ t.err = s.err ∧ t.draws = s.draws ∧
      (s.rnd.toNat < 32 → t.phase = .run ∧ t.out = s.out ∧ t.done = s.done)) ∧
    (∃ u, runFor (33 - s.rnd.toNat) s = .next u ∧ runFor (33 - s.rnd.toNat) (offer c s) = .next (offer c u) ∧
      u.phase = .idle ∧ (s.port = [] → step (offer c u) = exec (decode c) u))

/-! ## The commands -/

/-- R140: NOP has no effect at all, whatever its ARG. -/
def Obligations.NopHasNoEffect : Prop :=
  ∀ (arg : Word) (s : State), decode (0x0#4 ++ arg) = .nop arg ∧ exec (.nop arg) s = .next s

/-- R91 (R79, R54): KEYW writes K[KCNT] when KCNT < 8, discards the word otherwise, counts it with saturation at 15, and changes
nothing else; eight of them from KCNT = 0 leave exactly the eight words, which is deriveSubkeys of their
concatenation; KEYW and BLKW may be interleaved in any order, only the order within each kind matters. -/
def Obligations.KeywTakesKeyWordsInOrder : Prop :=
  (∀ (w : Word) (s : State), decode (0x1#4 ++ w) = .keyw w ∧
    ∃ t, exec (.keyw w) s = .next t ∧
      (∀ j : Fin 8, t.k[j] = if j.val = s.kcnt.toNat then w else s.k[j]) ∧
      t.kcnt.toNat = min (s.kcnt.toNat + 1) 15 ∧ t = { s with k := t.k, kcnt := t.kcnt }) ∧
  (∀ (k : Vector Word 8) (s : State), s.kcnt = 0 →
    execAll (expand (.loadKey k)) s = .next { s with k := k, kcnt := 8 } ∧ deriveSubkeys (keyMaterial k) = .ok k) ∧
  (∀ (w v : Word) (rest : List Instr) (s : State),
    execAll (.keyw w :: .blkw v :: rest) s = execAll (.blkw v :: .keyw w :: rest) s)

/-- R141: BLKW writes BLKIN[BCNT] when BCNT < 2, discards the word otherwise, counts it with saturation at 3, and
changes nothing else; the first carries the high half, the second the low half. -/
def Obligations.BlkwTakesBlockWordsInOrder : Prop :=
  (∀ (w : Word) (s : State), decode (0x2#4 ++ w) = .blkw w ∧
    ∃ t, exec (.blkw w) s = .next t ∧
      (∀ n : Fin 2, t.blkin[n] = if n.val = s.bcnt.toNat then w else s.blkin[n]) ∧
      t.bcnt.toNat = min (s.bcnt.toNat + 1) 3 ∧ t = { s with blkin := t.blkin, bcnt := t.bcnt }) ∧
  (∀ (hi lo : Word) (s : State), s.bcnt = 0 →
    ∃ t, execAll (expand (.loadBlk hi lo)) s = .next t ∧ inputBlock t = hi ++ lo ∧
      t = { s with blkin := #v[hi, lo], bcnt := 2 })

/-- R25 over a whole stream of KEYW: the words received are counted up to 15, the first eight are kept in order, and
nothing else changes. -/
def Obligations.KeywStreamCountsAndKeepsTheFirstEight : Prop :=
  ∀ (ws : List Word) (s : State), s.kcnt = 0 →
    ∃ t, execAll (ws.map .keyw) s = .next t ∧ t.kcnt.toNat = min ws.length 15 ∧
      (∀ j : Fin 8, t.k[j] = ws.getD j.val s.k[j]) ∧ t = { s with k := t.k, kcnt := t.kcnt }

/-- R125: the whole of START, for every direction code and every state: the flags and counters cleared, the three
checks in order, and on success the end state the rule gives; everything not named is unchanged. -/
def Obligations.StartRejectsOrEndsWithTheResult : Prop :=
  ∀ (d : Word) (s : State), exec (decode (0x3#4 ++ d)) s = .next (
    if s.kcnt ≠ 8 then { s with done := false, err := 1, kcnt := 0, bcnt := 0 }
    else if s.bcnt ≠ 2 then { s with done := false, err := 2, kcnt := 0, bcnt := 0 }
    else if d ≠ 0 ∧ d ≠ 1 then { s with done := false, err := 3, kcnt := 0, bcnt := 0 }
    else
      let dir := if d = 0 then Dir.encrypt else Dir.decrypt
      let result := gost (s.blkin[0] ++ s.blkin[1]) s.k dir Config.sbox
      { s with
        done := true, err := 0, kcnt := 0, bcnt := 0, rnd := 32, phase := .idle, dirreg := dir
        out := result, r := highHalf result, l := lowHalf result })

/-- R126: ENCRYPT is START 0; on success OUT is GOST of the input block in the encrypt direction; the two length
errors are the only ones. -/
def Obligations.EncryptWritesTheCiphertext : Prop :=
  decode 0x300000000 = .encrypt ∧ encode .encrypt = 0x300000000 ∧
  (∀ s : State, s.kcnt = 8 → s.bcnt = 2 → ∃ t, exec .encrypt s = .next t ∧
    t.out = gost (s.blkin[0] ++ s.blkin[1]) s.k .encrypt Config.sbox ∧ t.out = t.r ++ t.l ∧
    t = { s with
      done := true, err := 0, kcnt := 0, bcnt := 0, rnd := 32, phase := .idle, dirreg := .encrypt
      out := t.out, l := t.l, r := t.r }) ∧
  (∀ s : State, s.kcnt ≠ 8 ∨ s.bcnt ≠ 2 → exec .encrypt s =
    .next { s with done := false, err := if s.kcnt = 8 then 2 else 1, kcnt := 0, bcnt := 0 })

/-- R127: DECRYPT is START 1; on success OUT is GOST of the input block in the decrypt direction; the two length
errors are the only ones. -/
def Obligations.DecryptWritesThePlaintext : Prop :=
  decode 0x300000001 = .decrypt ∧ encode .decrypt = 0x300000001 ∧
  (∀ s : State, s.kcnt = 8 → s.bcnt = 2 → ∃ t, exec .decrypt s = .next t ∧
    t.out = gost (s.blkin[0] ++ s.blkin[1]) s.k .decrypt Config.sbox ∧ t.out = t.r ++ t.l ∧
    t = { s with
      done := true, err := 0, kcnt := 0, bcnt := 0, rnd := 32, phase := .idle, dirreg := .decrypt
      out := t.out, l := t.l, r := t.r }) ∧
  (∀ s : State, s.kcnt ≠ 8 ∨ s.bcnt ≠ 2 → exec .decrypt s =
    .next { s with done := false, err := if s.kcnt = 8 then 2 else 1, kcnt := 0, bcnt := 0 })

/-- R128: a START whose code is 2 or more can only be rejected, and this is all it does. -/
def Obligations.StartWithInvalidCodeIsRejected : Prop :=
  ∀ (d : Word) (s : State), 2 ≤ d.toNat → decode (0x3#4 ++ d) = .start d ∧
    exec (.start d) s = .next { s with
      done := false, kcnt := 0, bcnt := 0
      err := if s.kcnt ≠ 8 then 1 else if s.bcnt ≠ 2 then 2 else 3 }

/-- R160, R161: after a rejected START the engine waits for the next command: the code in ERR, the flags and counters
cleared, and K, BLKIN, L, R, RND, DIRREG, OUT as before the command; no response is given. -/
def Obligations.RejectionLeavesTheDataRegisters : Prop :=
  ∀ (s : State) (d : Word) (rest : List Cmd), s.rst = false → s.phase = .idle → s.port = (0x3#4 ++ d) :: rest →
    ¬ (s.kcnt = 8 ∧ s.bcnt = 2 ∧ d.toNat < 2) →
    ∃ (t : State) (e : StartError), step s = .next t ∧ t.err = e.code ∧ t.err ≠ 0 ∧
      (e = .invalidKeyLength ↔ s.kcnt ≠ 8) ∧ (e = .invalidBlockLength ↔ s.kcnt = 8 ∧ s.bcnt ≠ 2) ∧
      t.done = false ∧ t.kcnt = 0 ∧ t.bcnt = 0 ∧ t.phase = .idle ∧ t.k = s.k ∧ t.blkin = s.blkin ∧
      t.l = s.l ∧ t.r = s.r ∧ t.rnd = s.rnd ∧ t.dirreg = s.dirreg ∧ t.out = s.out ∧
      t.responses = s.responses ∧ t.port = rest

/-- R142, R75: RDST answers the STATUS word, field by field, and changes nothing else. -/
def Obligations.RdstAnswersTheStatusFields : Prop :=
  ∀ (arg : Word) (s : State), decode (0x4#4 ++ arg) = .rdst arg ∧
    ∃ v : Word, exec (.rdst arg) s = .next { s with responses := s.responses ++ [v] } ∧
      v.getLsbD 0 = s.done ∧ v.extractLsb' 1 2 = s.err ∧ v.getLsbD 3 = false ∧
      v.extractLsb' 4 4 = s.kcnt ∧ v.extractLsb' 8 2 = s.bcnt ∧ v.extractLsb' 10 22 = 0

/-- R143 and R144 with DONE = 1: RDOH answers OUT[63:32] and RDOL OUT[31:0], in any order and any number of times,
changing nothing else. -/
def Obligations.ResultReadsAnswerTheHalves : Prop :=
  ∀ (arg : Word) (s : State), s.done = true →
    exec (.rdoh arg) s = .next { s with responses := s.responses ++ [s.out.extractLsb' 32 32] } ∧
    exec (.rdol arg) s = .next { s with responses := s.responses ++ [s.out.extractLsb' 0 32] } ∧
    decode (0x5#4 ++ arg) = .rdoh arg ∧ decode (0x6#4 ++ arg) = .rdol arg

/-- With DONE = 0 the word RDOH and RDOL answer is unspecified (R143, R144). That they run and answer SOME word, a
free value, and change nothing else, is the model's choice among those of U3 (log 4). -/
def Obligations.ResultReadsWithoutResultAnswerSomeWord : Prop :=
  ∀ (arg : Word) (s : State), s.done = false →
    (∃ v, exec (.rdoh arg) s = .next { s with responses := s.responses ++ [v] }) ∧
    (∃ v, exec (.rdol arg) s = .next { s with responses := s.responses ++ [v] })

/-- R66: the three reads change no state of the engine, and repeating one with no other command between answers the
same word (that RDOH and RDOL run with DONE = 0 too, answering a free word, is the model's choice, log 4). -/
def Obligations.ReadsAreIdempotent : Prop :=
  ∀ (a b : Word) (s : State),
    (∃ v, execAll [.rdst a, .rdst b] s = .next { s with responses := s.responses ++ [v, v] }) ∧
    (∃ v, execAll [.rdoh a, .rdoh b] s = .next { s with responses := s.responses ++ [v, v] }) ∧
    (∃ v, execAll [.rdol a, .rdol b] s = .next { s with responses := s.responses ++ [v, v] })

/-- 30_encoding.md R72: NOP, RDST, RDOH and RDOL ignore ARG: every value of it selects the same command with the same
effect. For RDOH and RDOL with DONE = 0, whose word is unspecified, this rests on the model's choice of what the free
word depends on (log 4). -/
def Obligations.IgnoredArgumentsChangeNothing : Prop :=
  ∀ (a b : Word) (s : State), exec (decode (0x0#4 ++ a)) s = exec (decode (0x0#4 ++ b)) s ∧
    exec (decode (0x4#4 ++ a)) s = exec (decode (0x4#4 ++ b)) s ∧
    exec (decode (0x5#4 ++ a)) s = exec (decode (0x5#4 ++ b)) s ∧
    exec (decode (0x6#4 ++ a)) s = exec (decode (0x6#4 ++ b)) s

/-- A reserved opcode has no step and is refused by name (43_host_commands.md R145). That every other command completes
at every state takes in RDOH and RDOL with DONE = 0, which run by the model's choice (log 4). -/
def Obligations.ReservedOpcodesAreRefused : Prop :=
  (∀ (arg : Word) (s : State), exec (.reserved7 arg) s = .refused (.reservedOpcode 7)) ∧
  (∀ (low : BitVec 3) (arg : Word) (s : State),
    exec (.reserved8F low arg) s = .refused (.reservedOpcode (1#1 ++ low))) ∧
  (∀ (s : State) (c : Cmd) (rest : List Cmd), s.rst = false → s.phase = .idle → s.port = c :: rest →
    7 ≤ (opcOf c).toNat → step s = .refused (.reservedOpcode (opcOf c))) ∧
  (∀ (c : Cmd) (s : State), (opcOf c).toNat < 7 → ∃ t, exec (decode c) s = .next t)

/-- 10_state.md section 7, the columns of the access matrix: which command may change which state; the port, the
reset input and everything not named stay. -/
def Obligations.CommandsWriteOnlyTheirRegisters : Prop :=
  ∀ (i : Instr) (s t : State), exec i s = .next t →
    (t.k ≠ s.k → ∃ w, i = .keyw w) ∧ (t.blkin ≠ s.blkin → ∃ w, i = .blkw w) ∧
    (t.kcnt ≠ s.kcnt → (∃ w, i = .keyw w) ∨ opcodeOf i = 3) ∧
    (t.bcnt ≠ s.bcnt → (∃ w, i = .blkw w) ∨ opcodeOf i = 3) ∧
    (t.l ≠ s.l ∨ t.r ≠ s.r ∨ t.out ≠ s.out ∨ t.rnd ≠ s.rnd ∨ t.dirreg ≠ s.dirreg ∨ t.phase ≠ s.phase ∨
      t.done ≠ s.done ∨ t.err ≠ s.err → opcodeOf i = 3) ∧
    (t.responses ≠ s.responses → opcodeOf i = 4 ∨ opcodeOf i = 5 ∨ opcodeOf i = 6) ∧
    t.port = s.port ∧ t.rst = s.rst

/-- R92: no round writes K; its only writer is a KEYW executed while PHASE = IDLE (beside reset, R180). -/
def Obligations.OnlyKeywWritesSubkeys : Prop :=
  ∀ s t : State, step s = .next t → s.rst = false → t.k ≠ s.k →
    s.phase = .idle ∧ ∃ (w : Word) (rest : List Cmd), s.port = (0x1#4 ++ w) :: rest ∧ s.kcnt.toNat < 8

/-- R31, R32: DONE and ERR stay until a START (or the output step of a run, or reset): no other command and no read
clears them. -/
def Obligations.FlagsStayUntilTheNextStart : Prop :=
  ∀ s t : State, step s = .next t → s.rst = false → s.phase = .idle → (t.done ≠ s.done ∨ t.err ≠ s.err) →
    ∃ (d : Word) (rest : List Cmd), s.port = (0x3#4 ++ d) :: rest

/-- 43_host_commands.md R148: no command reads back a subkey, the input block, L, R, the round counter or the direction:
what a command answers is the same whatever these hold. For RDOH and RDOL with DONE = 0, whose word is unspecified, this
rests on the model's choice of what the free word depends on (log 4). -/
def Obligations.ResponsesDoNotReadHiddenRegisters : Prop :=
  ∀ (i : Instr) (s t t' : State) (k : Vector Word 8) (b : Vector Word 2) (l r : Word) (n : BitVec 6) (d : Dir),
    exec i s = .next t → exec i { s with k := k, blkin := b, l := l, r := r, rnd := n, dirreg := d } = .next t' →
      t'.responses = t.responses

/-! ## The key schedule -/

/-- R90: deriveSubkeys partitions exactly 256 bits, first bit most significant, into K0 .. K7 in input order, and
rejects every other length. -/
def Obligations.DeriveSubkeysPartitionsTheKey : Prop :=
  ∀ bits : List Bool, (bits.length ≠ 256 → deriveSubkeys bits = .error .invalidKeyLength) ∧
    (bits.length = 256 → ∃ k, deriveSubkeys bits = .ok k ∧
      ∀ (j : Fin 8) (b : Fin 32), k[j].getLsbD (31 - b.val) = bits.getD (32 * j.val + b.val) false)

/-- R94: the encrypt order: its closed form, the source's pinned values, each subkey used exactly four times. -/
def Obligations.EncryptOrderAscendsThriceThenDescends : Prop :=
  (∀ i : Fin 32, ((roundKeyOrder .encrypt)[i]).val = if i.val ≤ 23 then i.val % 8 else 31 - i.val) ∧
  (∀ j : Fin 8, (roundKeyOrder .encrypt).toList.count j = 4)

/-- R95: the decrypt order: its closed form, the source's pinned values, each subkey used exactly four times. -/
def Obligations.DecryptOrderAscendsOnceThenDescends : Prop :=
  (∀ i : Fin 32, ((roundKeyOrder .decrypt)[i]).val = if i.val ≤ 7 then i.val else (31 - i.val) % 8) ∧
  (∀ j : Fin 8, (roundKeyOrder .decrypt).toList.count j = 4)

/-- The decrypt order is the encrypt order mirrored (40_key_schedule.md R96), and the running index register gives
both orders round by round (R97). -/
def Obligations.OrdersMirrorAndIndexRegisterAgrees : Prop :=
  (∀ i : Fin 32, (roundKeyOrder .decrypt)[i] = (roundKeyOrder .encrypt)[31 - i.val]) ∧
  (∀ (d : Dir) (i : Fin 32), kidx d i.val = (roundKeyOrder d)[i])

/-! ## The round function -/

/-- R106: the addition is unsigned, modulo 2^32, commutative. -/
def Obligations.AddWrapsModuloTwoToThe32 : Prop :=
  ∀ right subkey : Word, (addStep right subkey).toNat = (right.toNat + subkey.toNat) % 2 ^ 32 ∧
    addStep right subkey = addStep subkey right

/-- R107: bits 31-4i : 28-4i of the result are table[sum[31-4i : 28-4i]][i], for each of the eight positions. -/
def Obligations.SubstituteActsLaneByLane : Prop :=
  ∀ (sum : Word) (table : Table) (i : Fin 8),
    (substitute sum table).extractLsb' (28 - 4 * i.val) 4 = table (sum.extractLsb' (28 - 4 * i.val) 4) i

/-- R108: bit b of the operand becomes bit (b + 11) mod 32 of the result, which is x[20:0] ‖ x[31:21]. -/
def Obligations.RotateMovesBitsLeftByEleven : Prop :=
  ∀ x : Word, (∀ b : Fin 32, (rotateStep x).getLsbD ((b.val + 11) % 32) = x.getLsbD b.val) ∧
    rotateStep x = x.extractLsb' 0 21 ++ x.extractLsb' 21 11

/-- 41_round_function.md: the four steps in their order (R105); what R111 derives from them: right and subkey enter only
through their sum, and for fixed right, subkey and table the function is its own inverse in left. -/
def Obligations.RoundFunctionIsItsOwnInverse : Prop :=
  ∀ (left right subkey : Word) (table : Table),
    roundFunction left right subkey table = rotl32 (substitute (right + subkey) table) 11 ^^^ left ∧
    roundFunction (roundFunction left right subkey table) right subkey table = left ∧
    (∀ right' subkey' : Word, right + subkey = right' + subkey' →
      roundFunction left right subkey table = roundFunction left right' subkey' table)

/-- The source's fixed vector (R112): with all three operands zero the result is row 0 of the table, rotated. -/
def Obligations.ZeroOperandsGiveRowZeroRotated : Prop :=
  ∀ table : Table, roundFunction 0 0 0 table =
    rotl32 (table 0 0 ++ table 0 1 ++ table 0 2 ++ table 0 3 ++ table 0 4 ++ table 0 5 ++ table 0 6 ++ table 0 7) 11

/-! ## The network -/

/-- 42_feistel_engine.md R130: decrypt inverts encrypt and encrypt inverts decrypt, for every block, key and table. -/
def Obligations.RoundTripForEveryTable : Prop :=
  ∀ (b : Block) (k : Vector Word 8) (table : Table),
    gost (gost b k .encrypt table) k .decrypt table = b ∧ gost (gost b k .decrypt table) k .encrypt table = b

/-- The claim inside the proof of R130: the states of the decrypt run are those of the encrypt run in reverse, the
halves exchanged. -/
def Obligations.DecryptRetracesEncryptBackwards : Prop :=
  ∀ (k : Vector Word 8) (table : Table) (start : Word × Word) (j : Nat), j ≤ 32 →
    halvesAfter table k .decrypt (halvesAfter table k .encrypt start 32).swap j =
      (halvesAfter table k .encrypt start (32 - j)).swap

/-- With eight equal subkeys the two directions coincide, for every table (R132, the all-zero key among them). -/
def Obligations.EqualSubkeysMakeDirectionsCoincide : Prop :=
  ∀ (k : Vector Word 8) (b : Block) (table : Table), (∀ i j : Fin 8, k[i] = k[j]) →
    gost b k .encrypt table = gost b k .decrypt table

/-- R122, R98: one round of the engine: L takes the old R, R the function value of the old halves and of the subkey
the order names, RND counts, and nothing else changes. -/
def Obligations.RoundStepExchangesTheHalves : Prop :=
  ∀ s : State, s.rst = false → s.phase = .run → (h : s.rnd.toNat < 32) →
    ∃ t, step s = .next t ∧ t.l = s.r ∧
      t.r = s.l ^^^ rotl32 (substitute (s.r + s.k[(roundKeyOrder s.dirreg)[s.rnd.toNat]]) Config.sbox) 11 ∧
      t.rnd.toNat = s.rnd.toNat + 1 ∧ t = { s with l := t.l, r := t.r, rnd := t.rnd }

/-- R124: the output step, taken at RND = 32, emits R ‖ L, sets DONE, returns PHASE to IDLE, and changes nothing
else. -/
def Obligations.OutputStepEmitsRightThenLeft : Prop :=
  ∀ s : State, s.rst = false → s.phase = .run → s.rnd = 32 →
    ∃ t, step s = .next t ∧ t.out.extractLsb' 32 32 = s.r ∧ t.out.extractLsb' 0 32 = s.l ∧ t.done = true ∧
      t.phase = .idle ∧ t = { s with out := t.out, done := true, phase := .idle }

/-- R123: from any point of a run the loop is unconditional: the engine is in RUN for the rest of its 32 rounds, and
one step later it is idle with a result. -/
def Obligations.RunEndsAfterItsThirtyTwoRounds : Prop :=
  ∀ s : State, s.rst = false → s.phase = .run → s.rnd.toNat ≤ 32 →
    (∀ n ≤ 32 - s.rnd.toNat, ∃ t : State, runFor n s = .next t ∧ t.phase = .run ∧
      t.rnd.toNat = s.rnd.toNat + n) ∧
    (∃ t : State, runFor (33 - s.rnd.toNat) s = .next t ∧ t.phase = .idle ∧ t.done = true)

/-- The small-step and the big-step reading agree (42_feistel_engine.md R134, R135; that exec takes the big step is
the model's choice, log 2): an accepted START enters RUN at round 0, and exactly 33 engine steps later the state is
the one the whole START gives; a rejected one is the same in both. -/
def Obligations.SmallStepsReachTheBigStep : Prop :=
  ∀ (s : State) (d : Word), s.rst = false → s.phase = .idle →
    ((acceptStart d s).phase = .run ∧ (acceptStart d s).rnd = 0 ∧ s.kcnt = 8 ∧ s.bcnt = 2 ∧ d.toNat < 2 ∧
      runFor 33 (acceptStart d s) = exec (decode (0x3#4 ++ d)) s) ∨
    ((acceptStart d s).phase = .idle ∧ ¬ (s.kcnt = 8 ∧ s.bcnt = 2 ∧ d.toNat < 2) ∧
      exec (decode (0x3#4 ++ d)) s = .next (acceptStart d s))

/-! ## Reset -/

/-- R180: reset may occur at any time, also while PHASE = RUN, and leaves the six control registers at their values,
whatever stood at the port. -/
def Obligations.ResetClearsTheControlRegisters : Prop :=
  ∀ s : State, ∃ t, step (assertReset s) = .next t ∧ t.kcnt = 0 ∧ t.bcnt = 0 ∧ t.done = false ∧ t.err = 0 ∧
    t.phase = .idle ∧ t.rnd = 0

/-- R40: the state after reset, in the registers the rule gives a value. -/
def Obligations.ResetStateHasItsValues : Prop :=
  State.reset.kcnt = 0 ∧ State.reset.bcnt = 0 ∧ State.reset.done = false ∧ State.reset.err = 0 ∧
    State.reset.phase = .idle ∧ State.reset.rnd = 0

/-- 70_reset_and_hazards.md R181: after reset RDST answers 0, and every START is rejected with InvalidKeyLength (that
the event clears the reset input is the model's choice, log 6). -/
def Obligations.FirstCommandsAfterReset : Prop :=
  ∀ s : State, ∃ t, step (assertReset s) = .next t ∧ t.rst = false ∧
    (∀ arg, exec (.rdst arg) t = .next { t with responses := t.responses ++ [0x00000000] }) ∧
    (∀ d : Word, ∃ u, exec (decode (0x3#4 ++ d)) t = .next u ∧ u.err = StartError.invalidKeyLength.code)

/-! ## The whole machine -/

/-- The invariant holds at reset. -/
def Obligations.ResetMeetsTheInvariant : Prop := State.reset.Inv

/-- Every step keeps the invariant: RND within 0..32, DONE and ERR exclusive, OUT = R ‖ L and OUT = GOST of the
registers while it is vouched for, a run's halves those of its rounds. -/
def Obligations.EveryStepKeepsTheInvariant : Prop :=
  ∀ s t : State, s.Inv → step s = .next t → t.Inv

/-- R155, R123: no error but the three of START, which are next states: a state that meets the invariant never
faults, whatever the host issues. -/
def Obligations.StepNeverFaults : Prop :=
  (∀ s : State, s.Inv → Faultless (step s)) ∧
  (∀ (p : List Cmd) (n : Nat), Faultless (runFor n { State.reset with port := p }))

/-- R85, R183 (10_state.md R35): one call of `run` at the port, from any idle state with both counters clear: eight
KEYW, two BLKW, ENCRYPT or DECRYPT, RDOH, RDOL answer the two halves of GOST of the block and key sent. The count of
thirteen steps, one a command, is that of the model's choice to take START whole (log 2). -/
def Obligations.InvocationAnswersGost : Prop :=
  ∀ (s : State) (k : Vector Word 8) (hi lo : Word) (d : Dir), s.rst = false → s.phase = .idle → s.kcnt = 0 →
    s.bcnt = 0 → s.port = (invocation k hi lo d).map encode →
    ∃ t : State, runFor 13 s = .next t ∧
      t.responses = s.responses ++
        [highHalf (gost (hi ++ lo) k d Config.sbox), lowHalf (gost (hi ++ lo) k d Config.sbox)] ∧
      t.port = [] ∧ t.phase = .idle ∧ t.done = true ∧ t.err = 0 ∧ t.kcnt = 0 ∧ t.bcnt = 0

/-- R129, R130 at the port: what one engine answers to an ENCRYPT, sent with the same key and DECRYPT to the same or
another engine, is answered with the block first sent, whatever the two engines held before. The count of thirteen
steps, one a command, is that of the model's choice to take START whole (log 2). -/
def Obligations.RoundTripAtThePort : Prop :=
  ∀ (s s' : State) (k : Vector Word 8) (hi lo : Word), s.rst = false → s.phase = .idle → s.kcnt = 0 → s.bcnt = 0 →
    s.port = (invocation k hi lo .encrypt).map encode →
    ∃ (t : State) (chi clo : Word), runFor 13 s = .next t ∧
      t.responses = s.responses ++ [chi, clo] ∧
      (s'.rst = false → s'.phase = .idle → s'.kcnt = 0 → s'.bcnt = 0 →
        s'.port = (invocation k chi clo .decrypt).map encode →
        ∃ t' : State, runFor 13 s' = .next t' ∧ t'.responses = s'.responses ++ [hi, lo])

/-- 10_state.md R35, R129: no hidden state: two engines with clear counters, given the same commands in the same order,
none of them a START or reserved, and then the same START, end with the same flags, and with the same result if there
is one, whatever their registers held before. -/
def Obligations.NoHiddenStateAcrossInvocations : Prop :=
  ∀ (is : List Instr) (d : Word) (s s' : State),
    (∀ i ∈ is, (opcodeOf i).toNat < 7 ∧ opcodeOf i ≠ 3) →
    s.kcnt = 0 → s.bcnt = 0 → s'.kcnt = 0 → s'.bcnt = 0 →
    ∃ t t', execAll (is ++ [decode (0x3#4 ++ d)]) s = .next t ∧ execAll (is ++ [decode (0x3#4 ++ d)]) s' = .next t' ∧
      t.done = t'.done ∧ t.err = t'.err ∧ t.kcnt = t'.kcnt ∧ t.bcnt = t'.bcnt ∧
      (t.done = true → t.out = t'.out ∧ t.l = t'.l ∧ t.r = t'.r ∧ t.k = t'.k ∧ t.blkin = t'.blkin ∧
        t.rnd = t'.rnd ∧ t.dirreg = t'.dirreg)

/-- R67: engines do not interfere: a schedule of steps of several engines completes exactly when each engine, run
alone for its own number of steps, does, and each then ends where it ends alone (the schedule's form is the model's,
log 14). -/
def Obligations.EnginesDoNotInterfere : Prop :=
  ∀ (sched : List (Fin Config.neng)) (es es' : Engines), runSchedule sched es = .next es' ↔
    ∀ e : Fin Config.neng, runFor (sched.count e) es[e] = .next es'[e]
end

