-- ==== Sys2Proof/Laws/Decode.lean ====
section
/-!
SUPPORT. The fields of a command word.
-/

namespace Sys2Proof

theorem opcOf_append (o : BitVec 4) (a : Word) : opcOf (o ++ a) = o := by
  ext i h
  simp only [opcOf, BitVec.getElem_extractLsb', BitVec.getLsbD_append]
  simp [show ¬ 32 + i < 32 by omega, h]

theorem argOf_append (o : BitVec 4) (a : Word) : argOf (o ++ a) = a := by
  ext i h
  simp only [argOf, BitVec.getElem_extractLsb', BitVec.getLsbD_append]
  simp [h]

theorem opcOf_append_argOf (c : Cmd) : opcOf c ++ argOf c = c := by
  ext i h
  simp only [opcOf, argOf, BitVec.getElem_append, BitVec.getElem_extractLsb']
  split
  · simp [h]
  · rw [show 32 + (i - 32) = i by omega]; simp [h]

/-- The low three opcode bits of a word, as the row RESERVED_8_F reads them. -/
theorem lowOpc_append (o : BitVec 4) (a : Word) : (o ++ a : Cmd).extractLsb' 32 3 = o.extractLsb' 0 3 := by
  ext i h
  simp only [BitVec.getElem_extractLsb', BitVec.getLsbD_append]
  simp

/-! What OPC ‖ ARG decodes to, one lemma per opcode (R71). -/

theorem decode_nop (a : Word) : decode (0x0#4 ++ a) = .nop a := by
  simp only [decode, opcOf_append, argOf_append]; rfl

theorem decode_keyw (a : Word) : decode (0x1#4 ++ a) = .keyw a := by
  simp only [decode, opcOf_append, argOf_append]; rfl

theorem decode_blkw (a : Word) : decode (0x2#4 ++ a) = .blkw a := by
  simp only [decode, opcOf_append, argOf_append]; rfl

theorem decode_rdst (a : Word) : decode (0x4#4 ++ a) = .rdst a := by
  simp only [decode, opcOf_append, argOf_append]; rfl

theorem decode_rdoh (a : Word) : decode (0x5#4 ++ a) = .rdoh a := by
  simp only [decode, opcOf_append, argOf_append]; rfl

theorem decode_rdol (a : Word) : decode (0x6#4 ++ a) = .rdol a := by
  simp only [decode, opcOf_append, argOf_append]; rfl

theorem decode_reserved7 (a : Word) : decode (0x7#4 ++ a) = .reserved7 a := by
  simp only [decode, opcOf_append, argOf_append]; rfl

theorem decode_start (d : Word) : decode (0x3#4 ++ d) = decodeStart d := by
  simp only [decode, opcOf_append, argOf_append]; rfl

theorem decode_reserved8F (o : BitVec 4) (h : 8 ≤ o.toNat) (a : Word) :
    decode (o ++ a) = .reserved8F (o.extractLsb' 0 3) a := by
  simp only [decode, opcOf_append, argOf_append, lowOpc_append]
  split <;> first | rfl | omega

/-- The opcodes by value, the eight reserved ones of the last row together. -/
theorem opcode_cases (o : BitVec 4) :
    o = 0 ∨ o = 1 ∨ o = 2 ∨ o = 3 ∨ o = 4 ∨ o = 5 ∨ o = 6 ∨ o = 7 ∨ 8 ≤ o.toNat := by
  revert o; decide

end Sys2Proof
end

