-- ==== Sys2Proof/Laws/State.lean ====
section
/-!
SUPPORT. One lemma per field per named operation, so that no proof unfolds a record update.
-/

namespace Sys2Proof.Machine

variable (s : State)

@[simp] theorem takeKeyWord_k (w : Word) : (takeKeyWord w s).k = if s.kcnt.toNat < 8 then setKey s.k s.kcnt.toNat w else s.k := rfl
@[simp] theorem takeKeyWord_blkin (w : Word) : (takeKeyWord w s).blkin = s.blkin := rfl
@[simp] theorem takeKeyWord_l (w : Word) : (takeKeyWord w s).l = s.l := rfl
@[simp] theorem takeKeyWord_r (w : Word) : (takeKeyWord w s).r = s.r := rfl
@[simp] theorem takeKeyWord_out (w : Word) : (takeKeyWord w s).out = s.out := rfl
@[simp] theorem takeKeyWord_kcnt (w : Word) : (takeKeyWord w s).kcnt = nextKcnt s.kcnt := rfl
@[simp] theorem takeKeyWord_bcnt (w : Word) : (takeKeyWord w s).bcnt = s.bcnt := rfl
@[simp] theorem takeKeyWord_rnd (w : Word) : (takeKeyWord w s).rnd = s.rnd := rfl
@[simp] theorem takeKeyWord_dirreg (w : Word) : (takeKeyWord w s).dirreg = s.dirreg := rfl
@[simp] theorem takeKeyWord_phase (w : Word) : (takeKeyWord w s).phase = s.phase := rfl
@[simp] theorem takeKeyWord_done (w : Word) : (takeKeyWord w s).done = s.done := rfl
@[simp] theorem takeKeyWord_err (w : Word) : (takeKeyWord w s).err = s.err := rfl
@[simp] theorem takeKeyWord_port (w : Word) : (takeKeyWord w s).port = s.port := rfl
@[simp] theorem takeKeyWord_responses (w : Word) : (takeKeyWord w s).responses = s.responses := rfl
@[simp] theorem takeKeyWord_rst (w : Word) : (takeKeyWord w s).rst = s.rst := rfl
@[simp] theorem takeKeyWord_draws (w : Word) : (takeKeyWord w s).draws = s.draws := rfl

@[simp] theorem takeBlockWord_k (w : Word) : (takeBlockWord w s).k = s.k := rfl
@[simp] theorem takeBlockWord_blkin (w : Word) : (takeBlockWord w s).blkin = if s.bcnt.toNat < 2 then setBlk s.blkin s.bcnt.toNat w else s.blkin := rfl
@[simp] theorem takeBlockWord_l (w : Word) : (takeBlockWord w s).l = s.l := rfl
@[simp] theorem takeBlockWord_r (w : Word) : (takeBlockWord w s).r = s.r := rfl
@[simp] theorem takeBlockWord_out (w : Word) : (takeBlockWord w s).out = s.out := rfl
@[simp] theorem takeBlockWord_kcnt (w : Word) : (takeBlockWord w s).kcnt = s.kcnt := rfl
@[simp] theorem takeBlockWord_bcnt (w : Word) : (takeBlockWord w s).bcnt = nextBcnt s.bcnt := rfl
@[simp] theorem takeBlockWord_rnd (w : Word) : (takeBlockWord w s).rnd = s.rnd := rfl
@[simp] theorem takeBlockWord_dirreg (w : Word) : (takeBlockWord w s).dirreg = s.dirreg := rfl
@[simp] theorem takeBlockWord_phase (w : Word) : (takeBlockWord w s).phase = s.phase := rfl
@[simp] theorem takeBlockWord_done (w : Word) : (takeBlockWord w s).done = s.done := rfl
@[simp] theorem takeBlockWord_err (w : Word) : (takeBlockWord w s).err = s.err := rfl
@[simp] theorem takeBlockWord_port (w : Word) : (takeBlockWord w s).port = s.port := rfl
@[simp] theorem takeBlockWord_responses (w : Word) : (takeBlockWord w s).responses = s.responses := rfl
@[simp] theorem takeBlockWord_rst (w : Word) : (takeBlockWord w s).rst = s.rst := rfl
@[simp] theorem takeBlockWord_draws (w : Word) : (takeBlockWord w s).draws = s.draws := rfl

@[simp] theorem respond_k (v : Word) : (respond v s).k = s.k := rfl
@[simp] theorem respond_blkin (v : Word) : (respond v s).blkin = s.blkin := rfl
@[simp] theorem respond_l (v : Word) : (respond v s).l = s.l := rfl
@[simp] theorem respond_r (v : Word) : (respond v s).r = s.r := rfl
@[simp] theorem respond_out (v : Word) : (respond v s).out = s.out := rfl
@[simp] theorem respond_kcnt (v : Word) : (respond v s).kcnt = s.kcnt := rfl
@[simp] theorem respond_bcnt (v : Word) : (respond v s).bcnt = s.bcnt := rfl
@[simp] theorem respond_rnd (v : Word) : (respond v s).rnd = s.rnd := rfl
@[simp] theorem respond_dirreg (v : Word) : (respond v s).dirreg = s.dirreg := rfl
@[simp] theorem respond_phase (v : Word) : (respond v s).phase = s.phase := rfl
@[simp] theorem respond_done (v : Word) : (respond v s).done = s.done := rfl
@[simp] theorem respond_err (v : Word) : (respond v s).err = s.err := rfl
@[simp] theorem respond_port (v : Word) : (respond v s).port = s.port := rfl
@[simp] theorem respond_responses (v : Word) : (respond v s).responses = s.responses ++ [v] := rfl
@[simp] theorem respond_rst (v : Word) : (respond v s).rst = s.rst := rfl
@[simp] theorem respond_draws (v : Word) : (respond v s).draws = s.draws := rfl

@[simp] theorem consumeInvocation_k : (consumeInvocation s).k = s.k := rfl
@[simp] theorem consumeInvocation_blkin : (consumeInvocation s).blkin = s.blkin := rfl
@[simp] theorem consumeInvocation_l : (consumeInvocation s).l = s.l := rfl
@[simp] theorem consumeInvocation_r : (consumeInvocation s).r = s.r := rfl
@[simp] theorem consumeInvocation_out : (consumeInvocation s).out = s.out := rfl
@[simp] theorem consumeInvocation_kcnt : (consumeInvocation s).kcnt = 0 := rfl
@[simp] theorem consumeInvocation_bcnt : (consumeInvocation s).bcnt = 0 := rfl
@[simp] theorem consumeInvocation_rnd : (consumeInvocation s).rnd = s.rnd := rfl
@[simp] theorem consumeInvocation_dirreg : (consumeInvocation s).dirreg = s.dirreg := rfl
@[simp] theorem consumeInvocation_phase : (consumeInvocation s).phase = s.phase := rfl
@[simp] theorem consumeInvocation_done : (consumeInvocation s).done = false := rfl
@[simp] theorem consumeInvocation_err : (consumeInvocation s).err = 0 := rfl
@[simp] theorem consumeInvocation_port : (consumeInvocation s).port = s.port := rfl
@[simp] theorem consumeInvocation_responses : (consumeInvocation s).responses = s.responses := rfl
@[simp] theorem consumeInvocation_rst : (consumeInvocation s).rst = s.rst := rfl
@[simp] theorem consumeInvocation_draws : (consumeInvocation s).draws = s.draws := rfl

@[simp] theorem raise_k (e : StartError) : (raise e s).k = s.k := rfl
@[simp] theorem raise_blkin (e : StartError) : (raise e s).blkin = s.blkin := rfl
@[simp] theorem raise_l (e : StartError) : (raise e s).l = s.l := rfl
@[simp] theorem raise_r (e : StartError) : (raise e s).r = s.r := rfl
@[simp] theorem raise_out (e : StartError) : (raise e s).out = s.out := rfl
@[simp] theorem raise_kcnt (e : StartError) : (raise e s).kcnt = s.kcnt := rfl
@[simp] theorem raise_bcnt (e : StartError) : (raise e s).bcnt = s.bcnt := rfl
@[simp] theorem raise_rnd (e : StartError) : (raise e s).rnd = s.rnd := rfl
@[simp] theorem raise_dirreg (e : StartError) : (raise e s).dirreg = s.dirreg := rfl
@[simp] theorem raise_phase (e : StartError) : (raise e s).phase = s.phase := rfl
@[simp] theorem raise_done (e : StartError) : (raise e s).done = s.done := rfl
@[simp] theorem raise_err (e : StartError) : (raise e s).err = e.code := rfl
@[simp] theorem raise_port (e : StartError) : (raise e s).port = s.port := rfl
@[simp] theorem raise_responses (e : StartError) : (raise e s).responses = s.responses := rfl
@[simp] theorem raise_rst (e : StartError) : (raise e s).rst = s.rst := rfl
@[simp] theorem raise_draws (e : StartError) : (raise e s).draws = s.draws := rfl

@[simp] theorem beginRun_k (dir : Dir) : (beginRun dir s).k = s.k := rfl
@[simp] theorem beginRun_blkin (dir : Dir) : (beginRun dir s).blkin = s.blkin := rfl
@[simp] theorem beginRun_l (dir : Dir) : (beginRun dir s).l = s.blkin[0] := rfl
@[simp] theorem beginRun_r (dir : Dir) : (beginRun dir s).r = s.blkin[1] := rfl
@[simp] theorem beginRun_out (dir : Dir) : (beginRun dir s).out = s.out := rfl
@[simp] theorem beginRun_kcnt (dir : Dir) : (beginRun dir s).kcnt = s.kcnt := rfl
@[simp] theorem beginRun_bcnt (dir : Dir) : (beginRun dir s).bcnt = s.bcnt := rfl
@[simp] theorem beginRun_rnd (dir : Dir) : (beginRun dir s).rnd = 0 := rfl
@[simp] theorem beginRun_dirreg (dir : Dir) : (beginRun dir s).dirreg = dir := rfl
@[simp] theorem beginRun_phase (dir : Dir) : (beginRun dir s).phase = .run := rfl
@[simp] theorem beginRun_done (dir : Dir) : (beginRun dir s).done = s.done := rfl
@[simp] theorem beginRun_err (dir : Dir) : (beginRun dir s).err = s.err := rfl
@[simp] theorem beginRun_port (dir : Dir) : (beginRun dir s).port = s.port := rfl
@[simp] theorem beginRun_responses (dir : Dir) : (beginRun dir s).responses = s.responses := rfl
@[simp] theorem beginRun_rst (dir : Dir) : (beginRun dir s).rst = s.rst := rfl
@[simp] theorem beginRun_draws (dir : Dir) : (beginRun dir s).draws = s.draws := rfl

@[simp] theorem roundStep_k (table : Table) : (roundStep table s).k = s.k := rfl
@[simp] theorem roundStep_blkin (table : Table) : (roundStep table s).blkin = s.blkin := rfl
@[simp] theorem roundStep_l (table : Table) : (roundStep table s).l = s.r := rfl
@[simp] theorem roundStep_r (table : Table) : (roundStep table s).r = roundFunction s.l s.r (fetchSubkey s.k s.dirreg s.rnd.toNat) table := rfl
@[simp] theorem roundStep_out (table : Table) : (roundStep table s).out = s.out := rfl
@[simp] theorem roundStep_kcnt (table : Table) : (roundStep table s).kcnt = s.kcnt := rfl
@[simp] theorem roundStep_bcnt (table : Table) : (roundStep table s).bcnt = s.bcnt := rfl
@[simp] theorem roundStep_rnd (table : Table) : (roundStep table s).rnd = s.rnd + 1 := rfl
@[simp] theorem roundStep_dirreg (table : Table) : (roundStep table s).dirreg = s.dirreg := rfl
@[simp] theorem roundStep_phase (table : Table) : (roundStep table s).phase = s.phase := rfl
@[simp] theorem roundStep_done (table : Table) : (roundStep table s).done = s.done := rfl
@[simp] theorem roundStep_err (table : Table) : (roundStep table s).err = s.err := rfl
@[simp] theorem roundStep_port (table : Table) : (roundStep table s).port = s.port := rfl
@[simp] theorem roundStep_responses (table : Table) : (roundStep table s).responses = s.responses := rfl
@[simp] theorem roundStep_rst (table : Table) : (roundStep table s).rst = s.rst := rfl
@[simp] theorem roundStep_draws (table : Table) : (roundStep table s).draws = s.draws := rfl

@[simp] theorem outputStep_k : (outputStep s).k = s.k := rfl
@[simp] theorem outputStep_blkin : (outputStep s).blkin = s.blkin := rfl
@[simp] theorem outputStep_l : (outputStep s).l = s.l := rfl
@[simp] theorem outputStep_r : (outputStep s).r = s.r := rfl
@[simp] theorem outputStep_out : (outputStep s).out = joinHalves s.r s.l := rfl
@[simp] theorem outputStep_kcnt : (outputStep s).kcnt = s.kcnt := rfl
@[simp] theorem outputStep_bcnt : (outputStep s).bcnt = s.bcnt := rfl
@[simp] theorem outputStep_rnd : (outputStep s).rnd = s.rnd := rfl
@[simp] theorem outputStep_dirreg : (outputStep s).dirreg = s.dirreg := rfl
@[simp] theorem outputStep_phase : (outputStep s).phase = .idle := rfl
@[simp] theorem outputStep_done : (outputStep s).done = true := rfl
@[simp] theorem outputStep_err : (outputStep s).err = s.err := rfl
@[simp] theorem outputStep_port : (outputStep s).port = s.port := rfl
@[simp] theorem outputStep_responses : (outputStep s).responses = s.responses := rfl
@[simp] theorem outputStep_rst : (outputStep s).rst = s.rst := rfl
@[simp] theorem outputStep_draws : (outputStep s).draws = s.draws := rfl

@[simp] theorem resetEvent_k : (resetEvent s).k = Vector.ofFn (Config.freeK s.draws) := rfl
@[simp] theorem resetEvent_blkin : (resetEvent s).blkin = Vector.ofFn (Config.freeBlkin s.draws) := rfl
@[simp] theorem resetEvent_l : (resetEvent s).l = Config.freeL s.draws := rfl
@[simp] theorem resetEvent_r : (resetEvent s).r = Config.freeR s.draws := rfl
@[simp] theorem resetEvent_out : (resetEvent s).out = Config.freeOut s.draws := rfl
@[simp] theorem resetEvent_kcnt : (resetEvent s).kcnt = 0 := rfl
@[simp] theorem resetEvent_bcnt : (resetEvent s).bcnt = 0 := rfl
@[simp] theorem resetEvent_rnd : (resetEvent s).rnd = 0 := rfl
@[simp] theorem resetEvent_dirreg : (resetEvent s).dirreg = Config.freeDir s.draws := rfl
@[simp] theorem resetEvent_phase : (resetEvent s).phase = .idle := rfl
@[simp] theorem resetEvent_done : (resetEvent s).done = false := rfl
@[simp] theorem resetEvent_err : (resetEvent s).err = 0 := rfl
@[simp] theorem resetEvent_port : (resetEvent s).port = s.port := rfl
@[simp] theorem resetEvent_responses : (resetEvent s).responses = s.responses := rfl
@[simp] theorem resetEvent_rst : (resetEvent s).rst = false := rfl
@[simp] theorem resetEvent_draws : (resetEvent s).draws = s.draws + 1 := rfl

@[simp] theorem offer_k (c : Cmd) : (offer c s).k = s.k := rfl
@[simp] theorem offer_blkin (c : Cmd) : (offer c s).blkin = s.blkin := rfl
@[simp] theorem offer_l (c : Cmd) : (offer c s).l = s.l := rfl
@[simp] theorem offer_r (c : Cmd) : (offer c s).r = s.r := rfl
@[simp] theorem offer_out (c : Cmd) : (offer c s).out = s.out := rfl
@[simp] theorem offer_kcnt (c : Cmd) : (offer c s).kcnt = s.kcnt := rfl
@[simp] theorem offer_bcnt (c : Cmd) : (offer c s).bcnt = s.bcnt := rfl
@[simp] theorem offer_rnd (c : Cmd) : (offer c s).rnd = s.rnd := rfl
@[simp] theorem offer_dirreg (c : Cmd) : (offer c s).dirreg = s.dirreg := rfl
@[simp] theorem offer_phase (c : Cmd) : (offer c s).phase = s.phase := rfl
@[simp] theorem offer_done (c : Cmd) : (offer c s).done = s.done := rfl
@[simp] theorem offer_err (c : Cmd) : (offer c s).err = s.err := rfl
@[simp] theorem offer_port (c : Cmd) : (offer c s).port = s.port ++ [c] := rfl
@[simp] theorem offer_responses (c : Cmd) : (offer c s).responses = s.responses := rfl
@[simp] theorem offer_rst (c : Cmd) : (offer c s).rst = s.rst := rfl
@[simp] theorem offer_draws (c : Cmd) : (offer c s).draws = s.draws := rfl

@[simp] theorem assertReset_k : (assertReset s).k = s.k := rfl
@[simp] theorem assertReset_blkin : (assertReset s).blkin = s.blkin := rfl
@[simp] theorem assertReset_l : (assertReset s).l = s.l := rfl
@[simp] theorem assertReset_r : (assertReset s).r = s.r := rfl
@[simp] theorem assertReset_out : (assertReset s).out = s.out := rfl
@[simp] theorem assertReset_kcnt : (assertReset s).kcnt = s.kcnt := rfl
@[simp] theorem assertReset_bcnt : (assertReset s).bcnt = s.bcnt := rfl
@[simp] theorem assertReset_rnd : (assertReset s).rnd = s.rnd := rfl
@[simp] theorem assertReset_dirreg : (assertReset s).dirreg = s.dirreg := rfl
@[simp] theorem assertReset_phase : (assertReset s).phase = s.phase := rfl
@[simp] theorem assertReset_done : (assertReset s).done = s.done := rfl
@[simp] theorem assertReset_err : (assertReset s).err = s.err := rfl
@[simp] theorem assertReset_port : (assertReset s).port = s.port := rfl
@[simp] theorem assertReset_responses : (assertReset s).responses = s.responses := rfl
@[simp] theorem assertReset_rst : (assertReset s).rst = true := rfl
@[simp] theorem assertReset_draws : (assertReset s).draws = s.draws := rfl

end Sys2Proof.Machine
end

