-- ==== Sys2Proof/Laws/Ops.lean ====
section
/-!
SUPPORT. One lemma per shared operation: everything it can do.
-/

namespace Sys2Proof.Machine

/-! Counters and codes. -/

theorem nextKcnt_toNat (c : BitVec 4) : (nextKcnt c).toNat = min (c.toNat + 1) 15 := by
  revert c; decide

theorem nextBcnt_toNat (c : BitVec 2) : (nextBcnt c).toNat = min (c.toNat + 1) 3 := by
  revert c; decide

theorem nextKcnt_ne_zero (c : BitVec 4) : nextKcnt c ≠ 0 := by
  revert c; decide

theorem nextBcnt_ne_zero (c : BitVec 2) : nextBcnt c ≠ 0 := by
  revert c; decide

theorem StartError.code_ne_zero (e : StartError) : e.code ≠ 0 := by
  cases e <;> decide

/-! Word stores. -/

theorem setKey_getElem (k : Vector Word 8) (n : Nat) (w : Word) (j : Fin 8) :
    (setKey k n w)[j] = if j.val = n then w else k[j] := by
  simp only [setKey, Fin.getElem_fin, Vector.getElem_setIfInBounds]
  by_cases h : j.val = n
  · simp [h]
  · rw [if_neg (Ne.symm h), if_neg h]

theorem setBlk_getElem (b : Vector Word 2) (n : Nat) (w : Word) (j : Fin 2) :
    (setBlk b n w)[j] = if j.val = n then w else b[j] := by
  simp only [setBlk, Fin.getElem_fin, Vector.getElem_setIfInBounds]
  by_cases h : j.val = n
  · simp [h]
  · rw [if_neg (Ne.symm h), if_neg h]

/-- What K holds after a key word, entry by entry; a ninth word finds no entry (R91). -/
theorem takeKeyWord_k_getElem (w : Word) (s : State) (j : Fin 8) :
    (takeKeyWord w s).k[j] = if j.val = s.kcnt.toNat then w else s.k[j] := by
  by_cases h : s.kcnt.toNat < 8
  · simp only [takeKeyWord, if_pos h]
    exact setKey_getElem _ _ _ _
  · simp only [takeKeyWord, if_neg h]
    exact (if_neg (by omega)).symm

/-- What BLKIN holds after a block word, entry by entry; a third word finds no entry (R141). -/
theorem takeBlockWord_blkin_getElem (w : Word) (s : State) (j : Fin 2) :
    (takeBlockWord w s).blkin[j] = if j.val = s.bcnt.toNat then w else s.blkin[j] := by
  by_cases h : s.bcnt.toNat < 2
  · simp only [takeBlockWord, if_pos h]
    exact setBlk_getElem _ _ _ _
  · simp only [takeBlockWord, if_neg h]
    exact (if_neg (by omega)).symm

/-! Halves of a block. -/

theorem highHalf_joinHalves (hi lo : Word) : highHalf (joinHalves hi lo) = hi := by
  ext i h
  simp only [highHalf, joinHalves, BitVec.getElem_extractLsb', BitVec.getLsbD_append]
  simp [show ¬ 32 + i < 32 by omega, h]

theorem lowHalf_joinHalves (hi lo : Word) : lowHalf (joinHalves hi lo) = lo := by
  ext i h
  simp only [lowHalf, joinHalves, BitVec.getElem_extractLsb', BitVec.getLsbD_append]
  simp [h]

theorem joinHalves_halves (b : Block) : joinHalves (highHalf b) (lowHalf b) = b := by
  refine BitVec.eq_of_getLsbD_eq fun i h => ?_
  simp only [highHalf, lowHalf, joinHalves, BitVec.getLsbD_append, BitVec.getLsbD_extractLsb']
  split
  · simp_all
  · rw [show 32 + (i - 32) = i by omega]; simp [show i - 32 < 32 by omega]

/-! The checks of START. -/

theorem dirOfCode_some {d : Word} {dir : Dir} (h : dirOfCode d = some dir) :
    (d = 0 ∧ dir = .encrypt) ∨ (d = 1 ∧ dir = .decrypt) := by
  unfold dirOfCode at h
  split at h
  · exact .inl ⟨‹_›, by simpa using h.symm⟩
  · split at h
    · exact .inr ⟨‹_›, by simpa using h.symm⟩
    · cases h

theorem dirOfCode_none {d : Word} (h : dirOfCode d = none) : d ≠ 0 ∧ d ≠ 1 := by
  unfold dirOfCode at h
  split at h
  · cases h
  · split at h
    · cases h
    · exact ⟨‹_›, ‹_›⟩

/-- What the checks answer: the first failing one in the order of R162, or the direction. -/
theorem startChecks_cases (kc : BitVec 4) (bc : BitVec 2) (d : Word) :
    (kc ≠ 8 ∧ startChecks kc bc d = .error .invalidKeyLength) ∨
    (kc = 8 ∧ bc ≠ 2 ∧ startChecks kc bc d = .error .invalidBlockLength) ∨
    (kc = 8 ∧ bc = 2 ∧ d ≠ 0 ∧ d ≠ 1 ∧ startChecks kc bc d = .error .invalidDirection) ∨
    (kc = 8 ∧ bc = 2 ∧ ∃ dir, dirOfCode d = some dir ∧ startChecks kc bc d = .ok dir) := by
  unfold startChecks
  by_cases hk : kc = 8
  · by_cases hb : bc = 2
    · rw [if_neg (Decidable.not_not.2 hk), if_neg (Decidable.not_not.2 hb)]
      cases hd : dirOfCode d with
      | none => exact .inr (.inr (.inl ⟨hk, hb, (dirOfCode_none hd).1, (dirOfCode_none hd).2, rfl⟩))
      | some dir => exact .inr (.inr (.inr ⟨hk, hb, dir, rfl, rfl⟩))
    · exact .inr (.inl ⟨hk, hb, by rw [if_neg (Decidable.not_not.2 hk), if_pos hb]⟩)
  · exact .inl ⟨hk, if_pos hk⟩

/-! The rounds. -/

/-- RND counts the rounds, and does not wrap up to 32 (R27). -/
theorem roundStep_rnd_toNat (table : Table) {s : State} (h : s.rnd.toNat < 32) :
    (roundStep table s).rnd.toNat = s.rnd.toNat + 1 := by
  simp only [roundStep_rnd, BitVec.toNat_add]
  have : (1 : BitVec 6).toNat = 1 := rfl
  omega

/-- What `n` round steps leave: only L, R and RND change. -/
theorem roundSteps_frame (table : Table) (n : Nat) (s : State) :
    roundSteps table n s =
      { s with
        l := (roundSteps table n s).l
        r := (roundSteps table n s).r
        rnd := (roundSteps table n s).rnd } := by
  induction n generalizing s with
  | zero => rfl
  | succ n ih => rw [roundSteps, ih]; rfl

theorem roundSteps_succ (table : Table) (n : Nat) (s : State) :
    roundSteps table (n + 1) s = roundStep table (roundSteps table n s) := by
  induction n generalizing s with
  | zero => rfl
  | succ n ih => rw [roundSteps, ih]; rfl

/-- RND after `n` round steps that stay within 32. -/
theorem roundSteps_rnd_toNat (table : Table) (n : Nat) {s : State} (h : s.rnd.toNat + n ≤ 32) :
    (roundSteps table n s).rnd.toNat = s.rnd.toNat + n := by
  induction n with
  | zero => rfl
  | succ n ih =>
    have e := ih (by omega)
    rw [roundSteps_succ, roundStep_rnd_toNat table (by omega)]
    omega

/-- Where the halves after `n` round steps stand, from RND = 0 (R120, R123). -/
theorem roundSteps_halves (table : Table) {s : State} (h0 : s.rnd = 0) (n : Nat) (hn : n ≤ 32) :
    ((roundSteps table n s).l, (roundSteps table n s).r) = halvesAfter table s.k s.dirreg (s.l, s.r) n ∧
      (roundSteps table n s).rnd.toNat = n := by
  induction n with
  | zero => exact ⟨rfl, by simp [roundSteps, h0]⟩
  | succ n ih =>
    obtain ⟨hlr, hr⟩ := ih (by omega)
    have hf := roundSteps_frame table n s
    rw [roundSteps_succ]
    refine ⟨?_, by rw [roundStep_rnd_toNat table (by omega), hr]⟩
    have hk : (roundSteps table n s).k = s.k := by rw [hf]
    have hd : (roundSteps table n s).dirreg = s.dirreg := by rw [hf]
    simp only [roundStep_l, roundStep_r, halvesAfter, ← hlr, hk, hd, hr]

/-- A START is rejected, with everything but ERR, DONE, KCNT and BCNT kept (R160), or ends with the result (R125). -/
theorem startWhole_cases (table : Table) (d : Word) (s : State) :
    (∃ e, startChecks s.kcnt s.bcnt d = .error e ∧
      startWhole table d s = { s with done := false, err := e.code, kcnt := 0, bcnt := 0 }) ∨
    (∃ dir, startChecks s.kcnt s.bcnt d = .ok dir ∧
      startWhole table d s =
        { s with
          done := true, err := 0, kcnt := 0, bcnt := 0, dirreg := dir, rnd := 32, phase := .idle
          l := (halvesAfter table s.k dir (s.blkin[0], s.blkin[1]) 32).1
          r := (halvesAfter table s.k dir (s.blkin[0], s.blkin[1]) 32).2
          out := gost (inputBlock s) s.k dir table }) := by
  cases h : startChecks s.kcnt s.bcnt d with
  | error e => exact .inl ⟨e, rfl, by simp only [startWhole, h]; rfl⟩
  | ok dir =>
    refine .inr ⟨dir, rfl, ?_⟩
    obtain ⟨hlr, hr⟩ :=
      roundSteps_halves table (s := beginRun dir (consumeInvocation s)) rfl 32 (Nat.le_refl _)
    have hr' : (roundSteps table 32 (beginRun dir (consumeInvocation s))).rnd = 32 :=
      BitVec.eq_of_toNat_eq (by simpa using hr)
    simp only [Prod.ext_iff] at hlr
    simp only [beginRun_k, beginRun_dirreg, beginRun_l, beginRun_r, consumeInvocation_k,
      consumeInvocation_blkin] at hlr
    simp only [startWhole, h]
    rw [roundSteps_frame, hlr.1, hlr.2, hr']
    simp only [outputStep, gost, inputBlock, highHalf_joinHalves, lowHalf_joinHalves, beginRun, consumeInvocation]

/-- What the engine's own step does, wherever RND stands (R34). -/
theorem engineStep_cases (table : Table) (s : State) :
    (s.rnd.toNat < 32 ∧ engineStep table s = .next (roundStep table s)) ∨
    (s.rnd.toNat = 32 ∧ engineStep table s = .next (outputStep s)) ∨
    (32 < s.rnd.toNat ∧ engineStep table s = .fault .noEngineStep) := by
  unfold engineStep
  rcases Nat.lt_trichotomy s.rnd.toNat 32 with h | h | h
  · exact .inl ⟨h, by simp [h]⟩
  · exact .inr (.inl ⟨h, by simp [h]⟩)
  · exact .inr (.inr ⟨h, by simp [show ¬ s.rnd.toNat < 32 by omega, show s.rnd.toNat ≠ 32 by omega]⟩)

/-! What RDOH and RDOL read. -/

theorem readableResult_of_done {s : State} (h : s.done = true) : readableResult s = s.out := if_pos h

/-- Answering a word changes nothing that a read reads (R66). -/
@[simp] theorem readableResult_respond (v : Word) (s : State) : readableResult (respond v s) = readableResult s := rfl

end Sys2Proof.Machine
end

