-- ==== Sys2Proof/Laws/PerInstr.lean ====
section
/-!
SUPPORT. What is proved of every instruction as syntax, one lemma per constructor.
-/

/-- The encoding of an instruction holds its opcode in bits 35:32 and its argument in bits 31:0 (R70). -/
def Sys2Proof.Laws.EncodingFields.Statement (i : Sys2Proof.Instr) : Prop :=
  Sys2Proof.opcOf (Sys2Proof.encode i) = Sys2Proof.opcodeOf i ∧
    Sys2Proof.argOf (Sys2Proof.encode i) = Sys2Proof.argumentOf i

namespace Sys2Proof.Laws.EncodingFields

theorem nop (arg : Word) : Statement (.nop arg) := ⟨opcOf_append _ _, argOf_append _ _⟩
theorem keyw (w : Word) : Statement (.keyw w) := ⟨opcOf_append _ _, argOf_append _ _⟩
theorem blkw (w : Word) : Statement (.blkw w) := ⟨opcOf_append _ _, argOf_append _ _⟩
theorem encrypt : Statement .encrypt := ⟨opcOf_append _ _, argOf_append _ _⟩
theorem decrypt : Statement .decrypt := ⟨opcOf_append _ _, argOf_append _ _⟩
theorem start (d : Word) : Statement (.start d) := ⟨opcOf_append _ _, argOf_append _ _⟩
theorem rdst (arg : Word) : Statement (.rdst arg) := ⟨opcOf_append _ _, argOf_append _ _⟩
theorem rdoh (arg : Word) : Statement (.rdoh arg) := ⟨opcOf_append _ _, argOf_append _ _⟩
theorem rdol (arg : Word) : Statement (.rdol arg) := ⟨opcOf_append _ _, argOf_append _ _⟩
theorem reserved7 (arg : Word) : Statement (.reserved7 arg) := ⟨opcOf_append _ _, argOf_append _ _⟩
theorem reserved8F (low : BitVec 3) (arg : Word) : Statement (.reserved8F low arg) :=
  ⟨opcOf_append _ _, argOf_append _ _⟩

end Sys2Proof.Laws.EncodingFields
end

