-- ==== Sys2Proof/Laws/Script.lean ====
section
/-!
SUPPORT. The digits and operands of the script form, written and read back.
-/

namespace Sys2Proof.Machine

@[simp] theorem digitValue_hexDigit (n : Nibble) : digitValue (hexDigit n) = some n := by
  revert n; decide

/-- No digit ends a word of a line or begins a comment. -/
theorem hexDigit_no_separator (n : Nibble) : hexDigit n ≠ ';' ∧ hexDigit n ≠ ' ' ∧ hexDigit n ≠ ',' := by
  revert n; decide

/-- An operand is read back as the word it was written from (R84). -/
theorem operandValue_operandText (w : Word) : operandValue (operandText w) = some w := by
  simp only [operandText, operandValue, List.cons_append, List.nil_append, List.finRange_succ, List.finRange_zero,
    List.map_cons, List.map_nil, List.mapM_cons, List.mapM_nil, digitValue_hexDigit]
  show some _ = some _
  congr 1
  refine BitVec.eq_of_getLsbD_eq fun i h => ?_
  simp only [List.foldl_cons, List.foldl_nil, nib, BitVec.getLsbD_or, BitVec.getLsbD_shiftLeft,
    BitVec.getLsbD_setWidth, BitVec.getLsbD_extractLsb']
  interval_cases i <;> simp

end Sys2Proof.Machine
end

