-- ==== Sys2Proof/Laws/Step.lean ====
section
/-!
SUPPORT. What a command and a step can do, said once.
-/

namespace Sys2Proof.Machine

/-- Everything a command that answers a next state can have done. -/
theorem exec_next_cases {i : Instr} {s t : State} (h : exec i s = .next t) :
    (∃ a, i = .nop a ∧ t = s) ∨ (∃ w, i = .keyw w ∧ t = takeKeyWord w s) ∨
    (∃ w, i = .blkw w ∧ t = takeBlockWord w s) ∨
    (∃ d, (i = .encrypt ∧ d = 0 ∨ i = .decrypt ∧ d = 1 ∨ i = .start d) ∧ t = startWhole Config.sbox d s) ∨
    (∃ a, i = .rdst a ∧ t = respond (statusWord s) s) ∨
    (∃ v, ((∃ a, i = .rdoh a ∧ v = highHalf (readableResult s)) ∨
      (∃ a, i = .rdol a ∧ v = lowHalf (readableResult s))) ∧ t = respond v s) := by
  cases i with
  | nop a => exact .inl ⟨a, rfl, (Host.Outcome.next.inj h).symm⟩
  | keyw w => exact .inr (.inl ⟨w, rfl, (Host.Outcome.next.inj h).symm⟩)
  | blkw w => exact .inr (.inr (.inl ⟨w, rfl, (Host.Outcome.next.inj h).symm⟩))
  | encrypt => exact .inr (.inr (.inr (.inl ⟨0, .inl ⟨rfl, rfl⟩, (Host.Outcome.next.inj h).symm⟩)))
  | decrypt => exact .inr (.inr (.inr (.inl ⟨1, .inr (.inl ⟨rfl, rfl⟩), (Host.Outcome.next.inj h).symm⟩)))
  | start d => exact .inr (.inr (.inr (.inl ⟨d, .inr (.inr rfl), (Host.Outcome.next.inj h).symm⟩)))
  | rdst a => exact .inr (.inr (.inr (.inr (.inl ⟨a, rfl, (Host.Outcome.next.inj h).symm⟩))))
  | rdoh a =>
    exact .inr (.inr (.inr (.inr (.inr ⟨_, .inl ⟨a, rfl, rfl⟩, (Host.Outcome.next.inj h).symm⟩))))
  | rdol a =>
    exact .inr (.inr (.inr (.inr (.inr ⟨_, .inr ⟨a, rfl, rfl⟩, (Host.Outcome.next.inj h).symm⟩))))
  | reserved7 _ => cases h
  | reserved8F _ _ => cases h

/-- No command faults: the errors of START are next states (R160). -/
theorem exec_ne_fault (i : Instr) (s : State) (f : Fault) : exec i s ≠ .fault f := by
  cases i <;> (intro h; cases h)

/-- The part of a START below the port is the same whatever waits at the port. -/
theorem startWhole_withPort (d : Word) (s : State) (p : List Cmd) :
    startWhole Config.sbox d { s with port := p } = { startWhole Config.sbox d s with port := p } := by
  rcases startWhole_cases Config.sbox d s with ⟨_, h, e⟩ | ⟨_, h, e⟩ <;> rw [e] <;>
    rcases startWhole_cases Config.sbox d { s with port := p } with ⟨_, h', e'⟩ | ⟨_, h', e'⟩ <;> rw [e'] <;>
    rw [h] at h' <;> cases h' <;> rfl

/-- No command reads or writes the port. -/
theorem exec_withPort (i : Instr) (s : State) (p : List Cmd) :
    exec i { s with port := p } =
      match exec i s with
      | .next t => .next { t with port := p }
      | .fault f => .fault f
      | .refused x => .refused x := by
  cases i with
  | encrypt => exact congrArg _ (startWhole_withPort 0 s p)
  | decrypt => exact congrArg _ (startWhole_withPort 1 s p)
  | start d => exact congrArg _ (startWhole_withPort d s p)
  | _ => rfl

/-- A command leaves the port and the reset input, and an idle engine idle (R63). -/
theorem exec_keeps {i : Instr} {s t : State} (h : exec i s = .next t) :
    t.port = s.port ∧ t.rst = s.rst ∧ (s.phase = .idle → t.phase = .idle) := by
  rcases exec_next_cases h with ⟨_, _, rfl⟩ | ⟨_, _, rfl⟩ | ⟨_, _, rfl⟩ | ⟨d, _, rfl⟩ | ⟨_, _, rfl⟩ | ⟨v, _, rfl⟩
  · exact ⟨rfl, rfl, id⟩
  · exact ⟨rfl, rfl, id⟩
  · exact ⟨rfl, rfl, id⟩
  · rcases startWhole_cases Config.sbox d s with ⟨_, _, e⟩ | ⟨_, _, e⟩ <;> rw [e]
    · exact ⟨rfl, rfl, id⟩
    · exact ⟨rfl, rfl, fun _ => rfl⟩
  · exact ⟨rfl, rfl, id⟩
  · exact ⟨rfl, rfl, id⟩

/-! Running the machine and running a list of commands, one step at a time. -/

theorem run_succ_of_core (M : Host.Core) (n : Nat) (s : M.State) :
    Host.Core.run M (n + 1) s =
      match M.step s with
      | .next t => Host.Core.run M n t
      | .fault f => .fault f
      | .refused x => .refused x := rfl

theorem runFor_zero (s : State) : runFor 0 s = .next s := rfl

theorem runFor_succ (n : Nat) (s : State) :
    runFor (n + 1) s =
      match step s with
      | .next t => runFor n t
      | .fault f => .fault f
      | .refused x => .refused x := by
  have e := run_succ_of_core Sys2Proof.core n s
  cases h : step s with
  | next t => rw [show Sys2Proof.core.step s = Host.Outcome.next t from h] at e; exact e
  | fault f => rw [show Sys2Proof.core.step s = Host.Outcome.fault f from h] at e; exact e
  | refused x => rw [show Sys2Proof.core.step s = Host.Outcome.refused x from h] at e; exact e

theorem runFor_succ_of_next {s t : State} (h : step s = .next t) (n : Nat) : runFor (n + 1) s = runFor n t := by
  rw [runFor_succ, h]

theorem execAll_cons_of_next {i : Instr} {s t : State} (h : exec i s = .next t) (rest : List Instr) :
    execAll (i :: rest) s = execAll rest t := by
  rw [execAll, h]

theorem execAll_append_of_next {is : List Instr} {s t : State} (h : execAll is s = .next t) (rest : List Instr) :
    execAll (is ++ rest) s = execAll rest t := by
  induction is generalizing s with
  | nil => cases h; rfl
  | cons i is ih =>
    rw [execAll] at h
    cases hi : exec i s with
    | next u => rw [hi] at h; rw [List.cons_append, execAll_cons_of_next hi]; exact ih h
    | fault f => rw [hi] at h; cases h
    | refused x => rw [hi] at h; cases h

/-- Everything a step that answers a next state can have done (R34). -/
theorem step_next_cases {s t : State} (h : step s = .next t) :
    (s.rst = true ∧ t = resetEvent s) ∨
    (s.rst = false ∧ s.phase = .run ∧ s.rnd.toNat < 32 ∧ t = roundStep Config.sbox s) ∨
    (s.rst = false ∧ s.phase = .run ∧ s.rnd.toNat = 32 ∧ t = outputStep s) ∨
    (s.rst = false ∧ s.phase = .idle ∧ s.port = [] ∧ t = s) ∨
    (s.rst = false ∧ s.phase = .idle ∧ ∃ c rest, s.port = c :: rest ∧
      exec (decode c) { s with port := rest } = .next t) := by
  unfold step at h
  cases hr : s.rst with
  | true => simp only [hr, if_true] at h; exact .inl ⟨rfl, (Host.Outcome.next.inj h).symm⟩
  | false =>
    refine .inr ?_
    rw [hr] at h
    cases hp : s.phase with
    | run =>
      simp only [hp] at h
      rcases engineStep_cases Config.sbox s with ⟨h1, e⟩ | ⟨h1, e⟩ | ⟨-, e⟩
      · exact .inl ⟨rfl, rfl, h1, (Host.Outcome.next.inj (e ▸ h)).symm⟩
      · exact .inr (.inl ⟨rfl, rfl, h1, (Host.Outcome.next.inj (e ▸ h)).symm⟩)
      · rw [e] at h; cases h
    | idle =>
      refine .inr (.inr ?_)
      simp only [hp] at h
      cases hq : s.port with
      | nil => simp only [hq] at h; exact .inl ⟨rfl, rfl, rfl, (Host.Outcome.next.inj h).symm⟩
      | cons c rest => simp only [hq] at h; exact .inr ⟨rfl, rfl, c, rest, rfl, h⟩

/-- While PHASE = RUN and reset is not asserted, a step is the engine's own (R34). -/
theorem step_of_run {s : State} (hr : s.rst = false) (hp : s.phase = .run) :
    step s = engineStep Config.sbox s := by
  simp [step, hr, hp]

/-- The steps of a run are its round steps, as long as RND stays within 32 (R123, R134). -/
theorem runFor_roundSteps (n m : Nat) {s : State} (hr : s.rst = false) (hp : s.phase = .run)
    (hn : s.rnd.toNat + n ≤ 32) : runFor (n + m) s = runFor m (roundSteps Config.sbox n s) := by
  induction n generalizing s with
  | zero => rw [Nat.zero_add]; rfl
  | succ n ih =>
    have h : s.rnd.toNat < 32 := by omega
    have hs : step s = .next (roundStep Config.sbox s) := by
      rw [step_of_run hr hp]; simp [engineStep, h]
    rw [show n + 1 + m = (n + m) + 1 by omega, runFor_succ_of_next hs,
      ih (s := roundStep Config.sbox s) hr hp (by rw [roundStep_rnd_toNat _ h]; omega)]
    rfl

end Sys2Proof.Machine
end

