-- ==== Sys2Proof/Tests/Slice0.lean ====
section
/-!
SUPPORT. The model's own tests. Expected values are those of spec/95_test_vectors.md (named V-…, T…, P…) and of the
examples in the rules; the tables T_ID, T_POS, T_AFF and T_SQ are the fixtures of that file, not the hardware's table.
Then one witness for each obligation that has hypotheses.
-/

namespace Sys2Proof.Machine.Tests

/-! ## WellFormed: an ill-formed term for its one check -/

theorem test_wf_refuses_start_0 : (Instr.start 0).wf = false := by decide
theorem test_wf_refuses_start_1 : (Instr.start 1).wf = false := by decide
theorem test_wf_admits_start_2 : (Instr.start 2).wf = true := by decide

/-! ## Decode: words written out bit by bit, OPC then ARG (R70, R71) -/

theorem test_decode_nop : decode 0b0000_00000000000000000000000000000000 = .nop 0 := by decide
theorem test_decode_keyw : decode 0b0001_00000001001000110100010101100111 = .keyw 0x01234567 := by decide
theorem test_decode_blkw : decode 0b0010_10001001101010111100110111101111 = .blkw 0x89ABCDEF := by decide
theorem test_decode_encrypt : decode 0b0011_00000000000000000000000000000000 = .encrypt := by decide
theorem test_decode_decrypt : decode 0b0011_00000000000000000000000000000001 = .decrypt := by decide
theorem test_decode_start : decode 0b0011_10000000000000000000000000000000 = .start 0x80000000 := by decide
theorem test_decode_rdst : decode 0b0100_00000000000000000000000000000000 = .rdst 0 := by decide
theorem test_decode_rdoh : decode 0b0101_00000000000000000000000000000000 = .rdoh 0 := by decide
theorem test_decode_rdol : decode 0b0110_11111111111111111111111111111111 = .rdol 0xFFFFFFFF := by decide
theorem test_decode_reserved7 : decode 0b0111_00000000000000000000000000000001 = .reserved7 1 := by decide
theorem test_decode_reserved8F : decode 0b1101_00000000000000000000000000000001 = .reserved8F 5 1 := by decide
theorem test_encode_keyw : encode (.keyw 0x01234567) = 0x101234567 := by decide
theorem test_overwide_is_rejected : decodeTableWord 40 0x1000000000 = none := by decide
theorem test_table_word : decodeTableWord 40 0x300000001 = some .decrypt := by decide

/-! ## Fixtures -/

def tId : Table := fun v _ => v
def tPos : Table := fun v i => v + BitVec.ofNat 4 i.val
def tAff : Table := fun v i => 7 * v + BitVec.ofNat 4 (3 * i.val + 5)
def tSq : Table := fun v i => v * v + BitVec.ofNat 4 i.val

def keyA : Vector Word 8 :=
  #v[0x01234567, 0x89ABCDEF, 0xFEDCBA98, 0x76543210, 0x0F1E2D3C, 0x4B5A6978, 0x8796A5B4, 0xC3D2E1F0]

/-- A state with every register zero, idle, nothing at the port. -/
def blank : State where
  k := Vector.replicate 8 0
  blkin := Vector.replicate 2 0
  l := 0
  r := 0
  out := 0
  kcnt := 0
  bcnt := 0
  rnd := 0
  dirreg := .encrypt
  phase := .idle
  done := false
  err := 0
  port := []
  responses := []
  rst := false
  draws := 0

/-- Block BA and key A loaded, ready for a START. -/
def loaded : State := { blank with k := keyA, blkin := #v[0x01234567, 0x89ABCDEF], kcnt := 8, bcnt := 2 }

/-- A run at round `n`. -/
def running (n : BitVec 6) : State := { blank with phase := .run, rnd := n }

/-! ## Key schedule (V-KS1, V-KS2) -/

theorem test_deriveSubkeys : (deriveSubkeys (keyMaterial keyA)).toOption = some keyA := by decide +kernel
theorem test_deriveSubkeys_long :
    (deriveSubkeys (List.replicate 288 true)).toOption = none := by decide +kernel
theorem test_keyw_ninth_is_discarded_and_counted :
    execKeyw 5 { blank with kcnt := 8 } = .next { blank with kcnt := 9 } := rfl
theorem test_keyw_saturates : execKeyw 5 { blank with kcnt := 15 } = .next { blank with kcnt := 15 } := rfl

/-! ## Round function (V-RF1 to V-RF6) -/

theorem test_rotl_one : rotateStep 0x00000001 = 0x00000800 := by decide
theorem test_rotl_word : rotateStep 0x12345678 = 0xA2B3C091 := by decide
theorem test_substitute_pos : substitute 0x00000001 tPos = 0x01234568 := by decide
theorem test_substitute_aff : substitute 0x89ABCDEF tAff = 0xD71B5F93 := by decide
theorem test_substitute_sq : substitute 0x80000000 tSq = 0x01234567 := by decide
theorem test_round_pos : roundFunction 0xDEADBEEF 0x01234567 0x89ABCDEF tPos = 0xCC6852B0 := by decide
theorem test_round_id : roundFunction 0xDEADBEEF 0x01234567 0x89ABCDEF tId = 0xA6370AB9 := by decide
theorem test_round_wraps : roundFunction 0x12345678 0xFFFFFFFF 0xFFFFFFFF tAff = 0x2F5C3172 := by decide

/-! ## The network (V-FE1, V-KS6, T2) -/

theorem test_gost_pos_enc : gost 0x0123456789ABCDEF keyA .encrypt tPos = 0xF364774C93D437B2 := by decide +kernel
theorem test_gost_pos_dec : gost 0x0123456789ABCDEF keyA .decrypt tPos = 0x99FF2B79474344B6 := by decide +kernel
theorem test_gost_aff_enc : gost 0xFFFFFFFFFFFFFFFF keyA .encrypt tAff = 0x812A8FE48256C4BB := by decide +kernel
theorem test_gost_sq_dec : gost 0x0000000000000000 keyA .decrypt tSq = 0xFE64C67E009C609E := by decide +kernel
theorem test_gost_zero_vector :
    gost 0 (Vector.replicate 8 0) .encrypt tPos = 0xBD685830FE0BEBE8 := by decide +kernel
theorem test_gost_one_subkey : gost 0 #v[0, 0, 0, 0, 0, 0, 1, 0] .encrypt tId = 0x44C42800204888A4 := by
  decide +kernel
theorem test_first_round :
    let t := roundStep tPos (beginRun .encrypt loaded)
    (t.l, t.r, t.rnd) = (0x89ABCDEF, 0x13E6A938, 1) := by decide
theorem test_last_output :
    (outputStep { blank with l := 0x93D437B2, r := 0xF364774C, rnd := 32 }).out = 0xF364774C93D437B2 := by decide

/-! ## START (P1, V-EX1) -/

theorem test_start_encrypts :
    let t := startWhole tPos 0 loaded
    (t.out, t.done, t.err, t.kcnt, t.bcnt, t.rnd) = (0xF364774C93D437B2, true, 0, 0, 0, 32) := by decide +kernel
theorem test_start_decrypts :
    (startWhole tPos 1 { loaded with blkin := #v[0xF364774C, 0x93D437B2] }).out = 0x0123456789ABCDEF := by
  decide +kernel
theorem test_start_priority :
    [(8, 2, 2), (8, 2, 0xFFFFFFFF), (8, 2, 0x100), (8, 1, 0), (8, 3, 1), (8, 0, 7), (7, 2, 0), (9, 2, 0),
      (15, 2, 0), (0, 0, 0), (7, 3, 5)].map
        (fun x => statusWord (startWhole tPos x.2.2 { loaded with kcnt := x.1, bcnt := x.2.1, done := true })) =
      [6, 6, 6, 4, 4, 4, 2, 2, 2, 2, 2] := by decide +kernel

/-! ## The port commands (V-HC1, V-HC2) -/

theorem test_blkw_second_is_low :
    execBlkw 7 { blank with bcnt := 1 } = .next { blank with blkin := #v[0, 7], bcnt := 2 } := rfl
theorem test_blkw_saturates : execBlkw 7 { blank with bcnt := 3 } = .next { blank with bcnt := 3 } := rfl
theorem test_status_loaded : statusWord { blank with done := true, kcnt := 8, bcnt := 3 } = 0x381 := by decide
theorem test_status_fields : statusWord { blank with err := 3, kcnt := 9, bcnt := 3 } = 0x396 := by decide
theorem test_rdst : execRdst 9 loaded = .next { loaded with responses := [0x280] } := rfl
theorem test_rdoh : execRdoh 0 { blank with done := true, out := 0xF364774C93D437B2 } =
    .next { blank with done := true, out := 0xF364774C93D437B2, responses := [0xF364774C] } := rfl
theorem test_rdol : execRdol 0 { blank with done := true, out := 0xF364774C93D437B2 } =
    .next { blank with done := true, out := 0xF364774C93D437B2, responses := [0x93D437B2] } := rfl
theorem test_rdoh_without_result_ignores_data_registers : execRdoh 0 { blank with k := keyA, l := 5 } =
    .next { blank with k := keyA, l := 5, responses := [highHalf (readableResult blank)] } := rfl
theorem test_reserved : step { blank with port := [0x900000001] } = .refused (.reservedOpcode 9) := rfl

/-! ## From reset -/

theorem test_reset_runs_keyw :
    step (State.reset.withFetchWord 40 0x101234567) = exec (.keyw 0x01234567) State.reset := rfl
theorem test_reset_rejects_start :
    step (State.reset.withFetchWord 40 0x300000000) = .next { State.reset with err := 1 } := rfl

/-! ## Script (P1, P2) -/

theorem test_script_keyw : assembleLine "KEYW 0x01234567      ; 101234567".toList = some [0x101234567] := by
  decide +kernel
theorem test_script_loadblk :
    assembleLine "LOADBLK 0x01234567, 0x89ABCDEF".toList = some [0x201234567, 0x289ABCDEF] := by decide +kernel
theorem test_script_note : assembleLine "RDST -> 0x00000280".toList = some [0x400000000] := by decide +kernel
theorem test_script_word : encodingText 0x10F1E2D3C = "10F1E2D3C".toList := by decide +kernel

/-! ## Witnesses: states and operands that meet the hypotheses of the obligations -/

theorem witness_decode_encode : (Instr.start 5).wf = true ∧ (Instr.reserved8F 7 0).wf = true := by decide
theorem witness_script_line : (Instr.start 2).wf = true ∧ (scriptLine (.start 2)).isSome = true := by decide
theorem witness_first_row : (1 : BitVec 4) ≠ 3 ∧ (decode 0x300000002).mnemonic = "START" := by decide
theorem witness_over_wide : 2 ^ 36 ≤ 2 ^ 36 ∧ 2 ^ 36 - 1 < 2 ^ 36 := by decide
theorem witness_step_runs_command : let s := { blank with port := [encode (.keyw 3)] }
    s.rst = false ∧ s.phase = .idle ∧ (Instr.keyw 3).wf = true ∧ s.port = encode (.keyw 3) :: [] := by decide
theorem witness_idle_waits : blank.rst = false ∧ blank.phase = .idle ∧ blank.port = [] := by decide
theorem witness_port_stream : let s := { blank with port := [Instr.keyw 3, .encrypt].map encode ++ [0x700000000] }
    (∀ i ∈ [Instr.keyw 3, .encrypt], i.wf = true) ∧ s.rst = false ∧ s.phase = .idle ∧
      s.port = [Instr.keyw 3, .encrypt].map encode ++ [0x700000000] := by decide
theorem witness_running_first : (running 0).rst = false ∧ (running 0).phase = .run ∧ (running 0).rnd.toNat ≤ 32 ∧
    (running 0).rnd.toNat < 32 ∧ (running 0).port = [] := by decide
theorem witness_running_last : (running 31).rst = false ∧ (running 31).phase = .run ∧
    (running 31).rnd.toNat < 32 := by decide
theorem witness_running_output : (running 32).rst = false ∧ (running 32).phase = .run ∧
    (running 32).rnd.toNat ≤ 32 ∧ (running 32).rnd = 32 := by decide
theorem witness_counters_clear : blank.kcnt = 0 ∧ blank.bcnt = 0 := by decide
theorem witness_loaded : loaded.kcnt = 8 ∧ loaded.bcnt = 2 := by decide
theorem witness_length_errors : let a := { loaded with kcnt := 9 }
    let b := { loaded with bcnt := 3 }
    (a.kcnt ≠ 8 ∨ a.bcnt ≠ 2) ∧ (b.kcnt ≠ 8 ∨ b.bcnt ≠ 2) := by decide
theorem witness_invalid_code : 2 ≤ (2 : Word).toNat ∧ 2 ≤ (0xFFFFFFFF : Word).toNat := by decide
theorem witness_rejection : let s := { loaded with port := [0x3#4 ++ (2 : Word)] }
    s.rst = false ∧ s.phase = .idle ∧ s.port = (0x3#4 ++ (2 : Word)) :: [] ∧
      ¬ (s.kcnt = 8 ∧ s.bcnt = 2 ∧ (2 : Word).toNat < 2) := by decide
theorem witness_rejection_key : let s := { blank with port := [0x3#4 ++ (0 : Word)] }
    s.rst = false ∧ s.phase = .idle ∧ s.port = (0x3#4 ++ (0 : Word)) :: [] ∧
      ¬ (s.kcnt = 8 ∧ s.bcnt = 2 ∧ (0 : Word).toNat < 2) := by decide
theorem witness_result_reads : ({ blank with done := true }).done = true ∧ blank.done = false := by decide
theorem witness_reserved : let s := { blank with port := [0x700000000] }
    s.rst = false ∧ s.phase = .idle ∧ s.port = 0x700000000 :: [] ∧ 7 ≤ (opcOf 0x700000000).toNat ∧
      (opcOf 0x6FFFFFFFF).toNat < 7 := by decide
theorem witness_exec_next : exec (.keyw 5) blank = .next (takeKeyWord 5 blank) ∧
    (takeKeyWord 5 blank).k ≠ blank.k := ⟨rfl, by decide⟩
theorem witness_exec_next_block : exec (.blkw 5) blank = .next (takeBlockWord 5 blank) ∧
    (takeBlockWord 5 blank).blkin ≠ blank.blkin := ⟨rfl, by decide⟩
theorem witness_exec_next_start : exec .encrypt blank = .next { blank with err := 1 } ∧
    ({ blank with err := 1 }).err ≠ blank.err := ⟨rfl, by decide⟩
theorem witness_exec_next_read : exec (.rdst 0) blank = .next { blank with responses := [0] } ∧
    ({ blank with responses := [0] }).responses ≠ blank.responses := ⟨rfl, by decide⟩
theorem witness_only_keyw : let s := { blank with port := [0x1#4 ++ (5 : Word)] }
    step s = .next (takeKeyWord 5 blank) ∧ s.rst = false ∧ (takeKeyWord 5 blank).k ≠ s.k := ⟨rfl, rfl, by decide⟩
theorem witness_flags : let s := { blank with port := [0x3#4 ++ (0 : Word)] }
    step s = .next { blank with err := 1 } ∧ s.rst = false ∧ s.phase = .idle ∧
      (({ blank with err := 1 }).done ≠ s.done ∨ ({ blank with err := 1 }).err ≠ s.err) :=
  ⟨rfl, rfl, rfl, by decide⟩
theorem witness_hidden_registers : exec (.rdst 0) blank = .next { blank with responses := [0] } ∧
    exec (.rdst 0) { blank with k := keyA, blkin := #v[1, 2], l := 3, r := 4, rnd := 5, dirreg := .decrypt } =
      .next { blank with
        k := keyA, blkin := #v[1, 2], l := 3, r := 4, rnd := 5, dirreg := .decrypt, responses := [0] } := ⟨rfl, rfl⟩
theorem witness_hidden_registers_without_result :
    exec (.rdoh 0) blank = .next { blank with responses := [highHalf (readableResult blank)] } ∧
    exec (.rdoh 0) { blank with k := keyA, blkin := #v[1, 2], l := 3, r := 4, rnd := 5, dirreg := .decrypt } =
      .next { blank with
        k := keyA, blkin := #v[1, 2], l := 3, r := 4, rnd := 5, dirreg := .decrypt
        responses := [highHalf (readableResult blank)] } := ⟨rfl, rfl⟩
theorem witness_hidden_registers_with_result : let s := { blank with done := true, out := 0xF364774C93D437B2 }
    exec (.rdol 0) s = .next { s with responses := [0x93D437B2] } ∧
    exec (.rdol 0) { s with k := keyA, blkin := #v[1, 2], l := 3, r := 4, rnd := 5, dirreg := .decrypt } =
      .next { s with
        k := keyA, blkin := #v[1, 2], l := 3, r := 4, rnd := 5, dirreg := .decrypt, responses := [0x93D437B2] } :=
  ⟨rfl, rfl⟩
theorem witness_key_lengths : (List.replicate 255 true).length ≠ 256 ∧ (List.replicate 256 true).length = 256 := by
  simp only [List.length_replicate]
  decide
theorem witness_equal_sums : (1 : Word) + 2 = 2 + 1 := by decide
theorem witness_retrace : 32 ≤ 32 ∧ 0 ≤ 32 := by decide
theorem witness_equal_subkeys : ∀ i j : Fin 8, (Vector.replicate 8 (7 : Word))[i] = (Vector.replicate 8 7)[j] := by
  decide
theorem witness_small_step_accepts : loaded.rst = false ∧ loaded.phase = .idle ∧ (acceptStart 1 loaded).phase = .run := by
  decide
theorem witness_small_step_rejects : blank.rst = false ∧ blank.phase = .idle ∧ (acceptStart 1 blank).phase = .idle := by
  decide
theorem witness_inv_idle : blank.Inv :=
  ⟨by decide, by decide, by decide, fun h => absurd h (by decide), by decide, fun h => absurd h (by decide)⟩
theorem witness_inv_run : (running 0).Inv :=
  ⟨by decide, by decide, by decide, fun h => absurd h (by decide), by decide, fun _ => rfl⟩
theorem witness_inv_step : step (running 0) = .next (roundStep Config.sbox (running 0)) := rfl
theorem witness_invocation : let s := { blank with port := (invocation keyA 1 2 .decrypt).map encode }
    s.rst = false ∧ s.phase = .idle ∧ s.kcnt = 0 ∧ s.bcnt = 0 ∧
      s.port = (invocation keyA 1 2 .decrypt).map encode := ⟨rfl, rfl, rfl, rfl, rfl⟩
theorem witness_round_trip (chi clo : Word) :
    let s := { blank with port := (invocation keyA 1 2 .encrypt).map encode }
    let s' := { loaded with kcnt := 0, bcnt := 0, port := (invocation keyA chi clo .decrypt).map encode }
    s.rst = false ∧ s.phase = .idle ∧ s.kcnt = 0 ∧ s.bcnt = 0 ∧ s.port = (invocation keyA 1 2 .encrypt).map encode ∧
      s'.rst = false ∧ s'.phase = .idle ∧ s'.kcnt = 0 ∧ s'.bcnt = 0 ∧
      s'.port = (invocation keyA chi clo .decrypt).map encode :=
  ⟨rfl, rfl, rfl, rfl, rfl, rfl, rfl, rfl, rfl, rfl⟩
theorem witness_no_hidden_state : let s' := { loaded with kcnt := 0, bcnt := 0 }
    (∀ i ∈ expand (.loadKey keyA) ++ [Instr.nop 0, .rdst 0] ++ expand (.loadBlk 1 2) ++ expand .rdOut,
      (opcodeOf i).toNat < 7 ∧ opcodeOf i ≠ 3) ∧
    blank.kcnt = 0 ∧ blank.bcnt = 0 ∧ s'.kcnt = 0 ∧ s'.bcnt = 0 ∧ s' ≠ blank := by
  exact ⟨by decide, rfl, rfl, rfl, rfl, by decide⟩
theorem witness_engines (e : Fin Config.neng) : stepEngine e enginesReset = .next (enginesReset.set e State.reset) := by
  have h : enginesReset[e] = State.reset := by simp [enginesReset]
  rw [stepEngine, h]
  rfl

end Sys2Proof.Machine.Tests
end

section
/-!
The state after reset (spec/10_state.md rule R40): one lemma for each register the rule gives a value.
-/

namespace Sys2Proof.Machine

@[simp] theorem State.reset_kcnt : State.reset.kcnt = 0 := rfl
@[simp] theorem State.reset_bcnt : State.reset.bcnt = 0 := rfl
@[simp] theorem State.reset_done : State.reset.done = false := rfl
@[simp] theorem State.reset_err : State.reset.err = 0 := rfl
@[simp] theorem State.reset_phase : State.reset.phase = .idle := rfl
@[simp] theorem State.reset_rnd : State.reset.rnd = 0 := rfl

/-- Settles O48, register by register. -/
theorem resetStateHasItsValues : Obligations.ResetStateHasItsValues :=
  ⟨State.reset_kcnt, State.reset_bcnt, State.reset_done, State.reset_err, State.reset_phase, State.reset_rnd⟩

end Sys2Proof.Machine
end

section
/-!
The opcode table read as rows over OPC ‖ ARG (spec/30_encoding.md rule R78): when a row fits, and which row is first.
-/

namespace Sys2Proof

/-- A masked word OPC ‖ ARG meets a row's pattern field by field. -/
theorem append_and_append_eq_iff (o m p : BitVec 4) (a n q : Word) :
    ((o ++ a) &&& (m ++ n) : Cmd) = p ++ q ↔ o &&& m = p ∧ a &&& n = q := by
  rw [BitVec.and_append]
  refine ⟨fun h => ⟨?_, ?_⟩, fun ⟨ho, ha⟩ => by rw [ho, ha]⟩
  · simpa only [opcOf_append] using congrArg opcOf h
  · simpa only [argOf_append] using congrArg argOf h

/-! The three kinds of rows: those of one OPC, those of one word, and the row of the opcodes 8 to F. -/

def Row.ofOpc (name : String) (p : BitVec 4) : Row := ⟨name, 0xF#4 ++ 0#32, p ++ 0#32⟩

def Row.ofWord (name : String) (p : BitVec 4) (q : Word) : Row := ⟨name, 0xF#4 ++ 0xFFFFFFFF#32, p ++ q⟩

def Row.ofHighOpc (name : String) : Row := ⟨name, 0x8#4 ++ 0#32, 0x8#4 ++ 0#32⟩

theorem opcodeTable_eq : opcodeTable =
    [.ofOpc "NOP" 0, .ofOpc "KEYW" 1, .ofOpc "BLKW" 2, .ofWord "ENCRYPT" 3 0, .ofWord "DECRYPT" 3 1,
      .ofOpc "START" 3, .ofOpc "RDST" 4, .ofOpc "RDOH" 5, .ofOpc "RDOL" 6, .ofOpc "RESERVED_7" 7,
      .ofHighOpc "RESERVED_8_F"] := by
  decide

section FirstRow

variable (o p : BitVec 4) (a q : Word) (name : String) (rows : List Row)

@[simp] theorem firstRow_nil (c : Cmd) : firstRow c [] = none := rfl

@[simp] theorem firstRow_ofOpc :
    firstRow (o ++ a) (.ofOpc name p :: rows) = if o = p then some name else firstRow (o ++ a) rows := by
  have ho : o &&& 0xF#4 = o := BitVec.and_allOnes
  simp only [firstRow, Row.ofOpc, append_and_append_eq_iff, ho, BitVec.and_zero, and_true]

@[simp] theorem firstRow_ofWord :
    firstRow (o ++ a) (.ofWord name p q :: rows) =
      if o = p ∧ a = q then some name else firstRow (o ++ a) rows := by
  have ho : o &&& 0xF#4 = o := BitVec.and_allOnes
  have ha : a &&& 0xFFFFFFFF#32 = a := BitVec.and_allOnes
  simp only [firstRow, Row.ofWord, append_and_append_eq_iff, ho, ha]

@[simp] theorem firstRow_ofHighOpc :
    firstRow (o ++ a) (.ofHighOpc name :: rows) =
      if 8 ≤ o.toNat then some name else firstRow (o ++ a) rows := by
  have ho : o &&& 0x8#4 = 0x8#4 ↔ 8 ≤ o.toNat := by revert o; decide
  simp only [firstRow, Row.ofHighOpc, append_and_append_eq_iff, ho, BitVec.and_zero, and_true]

end FirstRow

/-- The rows ENCRYPT and DECRYPT stand before the general row START (R78). -/
theorem mnemonic_decode_start (d : Word) : (decode (3#4 ++ d)).mnemonic =
    if d = 0 then "ENCRYPT" else if d = 1 then "DECRYPT" else "START" := by
  rw [decode_start, decodeStart]
  split_ifs <;> rfl

/-- The decoder names the first row that fits, opcode by opcode (R78). -/
theorem firstRow_opcodeTable (o : BitVec 4) (a : Word) :
    firstRow (o ++ a) opcodeTable = some (decode (o ++ a)).mnemonic := by
  rcases opcode_cases o with rfl | rfl | rfl | rfl | rfl | rfl | rfl | rfl | h8
  case inr.inr.inr.inl => simp [opcodeTable_eq, mnemonic_decode_start, apply_ite some]
  case inr.inr.inr.inr.inr.inr.inr.inr =>
    have hne (p : BitVec 4) (hp : p.toNat < 8) : o ≠ p := by rintro rfl; omega
    simp [opcodeTable_eq, hne, h8, decode_reserved8F, Instr.mnemonic]
  all_goals
    simp [opcodeTable_eq, decode_nop, decode_keyw, decode_blkw, decode_rdst, decode_rdoh, decode_rdol,
      decode_reserved7, Instr.mnemonic]

/-- The only rows that look at ARG are ENCRYPT and DECRYPT, and they ask for OPC = 3 (R78). -/
theorem mnemonic_decode_congr_of_ne_three (o : BitVec 4) (a b : Word) (ho : o ≠ 3#4) :
    (decode (o ++ a)).mnemonic = (decode (o ++ b)).mnemonic := by
  have hrows : firstRow (o ++ a) opcodeTable = firstRow (o ++ b) opcodeTable := by simp [opcodeTable_eq, ho]
  rwa [firstRow_opcodeTable, firstRow_opcodeTable, Option.some_inj] at hrows

/-- The row named START asks for OPC = 3, and ENCRYPT and DECRYPT take the codes 0 and 1 from it (R78). -/
theorem opc_arg_of_mnemonic_decode_eq_start (o : BitVec 4) (a : Word) (h : (decode (o ++ a)).mnemonic = "START") :
    o = 3#4 ∧ 2 ≤ a.toNat := by
  have ho : o = 3#4 := by
    by_contra ho
    have hrow := firstRow_opcodeTable o a
    simp [opcodeTable_eq, h, ho, ite_eq_iff] at hrow
  subst ho
  have ha : ¬ a = 0 ∧ ¬ a = 1 := by simpa [mnemonic_decode_start, ite_eq_iff] using h
  exact ⟨rfl, by bv_omega⟩

/-- Settles O4: the word is read as OPC ‖ ARG, and the table row by row. -/
theorem decodeTakesTheFirstMatchingRow : Obligations.DecodeTakesTheFirstMatchingRow := by
  refine ⟨fun c => ?_, mnemonic_decode_congr_of_ne_three, mnemonic_decode_start, fun c h => ?_⟩
  · rw [← opcOf_append_argOf c]
    exact firstRow_opcodeTable _ _
  · rw [← opcOf_append_argOf c] at h
    exact opc_arg_of_mnemonic_decode_eq_start _ _ h

end Sys2Proof
end

section
/-!
Encoding a decoded command word (spec/30_encoding.md rules R71 and R78).
-/

namespace Sys2Proof

/-- The opcodes 8 to F are a 1 and three bits more. -/
theorem one_append_low_eq {o : BitVec 4} (h8 : 8 ≤ o.toNat) : 1#1 ++ o.extractLsb' 0 3 = o := by
  revert o; decide

/-- Whichever of the three commands OPC = 3 selects, it keeps the code (R78). -/
theorem encode_decodeStart (d : Word) : encode (decodeStart d) = 3#4 ++ d := by
  unfold decodeStart
  split_ifs with h0 h1
  · rw [h0]; rfl
  · rw [h1]; rfl
  · rfl

/-- A command word is the encoding of the command it decodes to, opcode by opcode (R71). -/
theorem encode_decode (c : Cmd) : encode (decode c) = c := by
  rw [← opcOf_append_argOf c]
  generalize opcOf c = o, argOf c = a
  rcases opcode_cases o with rfl | rfl | rfl | rfl | rfl | rfl | rfl | rfl | h8
  case inr.inr.inr.inl => simp [decode_start, encode_decodeStart]
  case inr.inr.inr.inr.inr.inr.inr.inr =>
    rw [decode_reserved8F o h8, encode, opcodeOf, argumentOf, one_append_low_eq h8]
  all_goals
    simp [decode_nop, decode_keyw, decode_blkw, decode_rdst, decode_rdoh, decode_rdol, decode_reserved7, encode,
      opcodeOf, argumentOf]

/-- A command word decodes to KEYW only if its OPC is 1 (R71). -/
theorem eq_append_of_decode_eq_keyw {c : Cmd} {w : Word} (h : decode c = .keyw w) : c = 0x1#4 ++ w := by
  rw [← encode_decode c, h]
  rfl

end Sys2Proof
end

section
/-!
The key words (spec/40_key_schedule.md rules R91 and R92): what a stream of KEYW leaves, and that nothing else writes K.
-/

namespace Sys2Proof.Machine

theorem exec_keyw (w : Word) (s : State) : exec (.keyw w) s = .next (takeKeyWord w s) := rfl

theorem exec_blkw (w : Word) (s : State) : exec (.blkw w) s = .next (takeBlockWord w s) := rfl

/-- Key words and block words go to different registers, counted by different counters (R91). -/
theorem takeBlockWord_takeKeyWord (w v : Word) (s : State) :
    takeBlockWord v (takeKeyWord w s) = takeKeyWord w (takeBlockWord v s) := rfl

/-- A stream of KEYW at any count: the words go to K[KCNT] and on, up to the end of K, and every one is counted up to
15 (R25, R91). -/
theorem execAll_map_keyw (ws : List Word) (s : State) :
    ∃ t, execAll (ws.map .keyw) s = .next t ∧
      t.kcnt.toNat = min (s.kcnt.toNat + ws.length) 15 ∧
      (∀ j : Fin 8, t.k[j] = if j.val < s.kcnt.toNat then s.k[j] else ws.getD (j.val - s.kcnt.toNat) s.k[j]) ∧
      t = { s with k := t.k, kcnt := t.kcnt } := by
  induction ws generalizing s with
  | nil => exact ⟨s, rfl, by simpa using Nat.le_of_lt_succ s.kcnt.isLt, by simp, rfl⟩
  | cons w ws ih =>
    obtain ⟨t, hrun, hcount, hkey, hframe⟩ := ih (takeKeyWord w s)
    rw [takeKeyWord_kcnt, nextKcnt_toNat] at hcount hkey
    refine ⟨t, (execAll_cons_of_next (exec_keyw w s) _).trans hrun, ?_, fun j => ?_, hframe⟩
    · rw [hcount, List.length_cons]; omega
    · rw [hkey, takeKeyWord_k_getElem]
      rcases Nat.lt_trichotomy j.val s.kcnt.toNat with hlt | heq | hgt
      · rw [if_pos (by omega), if_neg (by omega), if_pos hlt]
      · rw [if_pos (by omega), if_pos heq, if_neg (by omega), Nat.sub_eq_zero_of_le heq.le, List.getD_cons_zero]
      · have hsub : j.val - s.kcnt.toNat = j.val - (s.kcnt.toNat + 1) + 1 := by omega
        rw [if_neg (by omega), if_neg (by omega), if_neg (by omega), hsub, List.getD_cons_succ,
          show min (s.kcnt.toNat + 1) 15 = s.kcnt.toNat + 1 by omega]

/-- LOADKEY is the stream of KEYW of the eight words in order (R85). -/
theorem expand_loadKey (k : Vector Word 8) : expand (.loadKey k) = k.toList.map .keyw := by
  refine List.ext_getElem (by simp [expand]) fun i h _ => ?_
  have hi : i < 8 := h
  interval_cases i <;> simp [expand]

/-- Eight key words from KCNT = 0 replace K whole (R91). -/
theorem execAll_loadKey (k : Vector Word 8) {s : State} (h0 : s.kcnt = 0) :
    execAll (expand (.loadKey k)) s = .next { s with k := k, kcnt := 8 } := by
  obtain ⟨t, hrun, hcount, hkey, hframe⟩ := execAll_map_keyw k.toList s
  have htc : t.kcnt = 8 := BitVec.eq_of_toNat_eq (by simpa [h0] using hcount)
  have htk : t.k = k := Vector.ext fun j hj => by simpa [h0, hj] using hkey ⟨j, hj⟩
  rw [expand_loadKey, hrun, hframe, htk, htc]

/-- A START, rejected or not, keeps K (R92). -/
@[simp] theorem startWhole_k (table : Table) (d : Word) (s : State) : (startWhole table d s).k = s.k := by
  rcases startWhole_cases table d s with ⟨_, _, e⟩ | ⟨_, _, e⟩ <;> rw [e]

/-- The only command that changes K is a KEYW that finds KCNT below 8 (R91, R92). -/
theorem exec_changes_k {i : Instr} {s t : State} (h : exec i s = .next t) (hk : t.k ≠ s.k) :
    ∃ w, i = .keyw w ∧ s.kcnt.toNat < 8 := by
  rcases exec_next_cases h with ⟨_, _, rfl⟩ | ⟨w, rfl, rfl⟩ | ⟨_, _, rfl⟩ | ⟨_, _, rfl⟩ | ⟨_, _, rfl⟩ | ⟨_, _, rfl⟩
  case inr.inl =>
    refine ⟨w, rfl, ?_⟩
    by_contra hfull
    exact hk (by rw [takeKeyWord_k, if_neg hfull])
  all_goals exact absurd (by simp) hk

/-- Settles O28: of the things a step without reset can do, only a command from the port touches K, and that command
is a KEYW. -/
theorem onlyKeywWritesSubkeys : Obligations.OnlyKeywWritesSubkeys := by
  intro s t hstep hrst hk
  rcases step_next_cases hstep with
    ⟨hr, _⟩ | ⟨_, _, _, rfl⟩ | ⟨_, _, _, rfl⟩ | ⟨_, _, _, rfl⟩ | ⟨_, hidle, c, rest, hport, hexec⟩
  · exact absurd (hr.symm.trans hrst) (by decide)
  · exact absurd (roundStep_k _ _) hk
  · exact absurd (outputStep_k _) hk
  · exact absurd rfl hk
  · obtain ⟨w, hdec, hcount⟩ := exec_changes_k hexec hk
    exact ⟨hidle, w, rest, by rw [hport, eq_append_of_decode_eq_keyw hdec], hcount⟩

end Sys2Proof.Machine
end

section
/-!
deriveSubkeys and the round-key orders (spec/40_key_schedule.md rules R90, R94 and R95): the value of a bit string bit by
bit, and the key material of eight words.
-/

namespace Sys2Proof.Machine

theorem bitsToNat_concat (bits : List Bool) (b : Bool) : bitsToNat (bits ++ [b]) = Nat.bit b (bitsToNat bits) := by
  rw [Nat.bit_val]
  exact List.foldl_append

/-- Bit `i` of the value is entry `i` counted from the end, the last entry being the least significant (R55). -/
theorem testBit_bitsToNat (bits : List Bool) (i : Nat) : (bitsToNat bits).testBit i = bits.reverse.getD i false := by
  induction bits using List.reverseRecOn generalizing i with
  | nil => simp [bitsToNat]
  | append_singleton bits b ih =>
    rw [bitsToNat_concat, List.reverse_concat]
    cases i with
    | zero => exact Nat.testBit_bit_zero b _
    | succ i => rw [Nat.testBit_bit_succ, ih, List.getD_cons_succ]

theorem deriveSubkeys_of_length_ne {bits : List Bool} (h : bits.length ≠ 256) :
    deriveSubkeys bits = .error .invalidKeyLength := if_neg h

/-- Word `j` of a key of 256 bits holds the bits from `32 j` on, most significant first (R90). -/
theorem deriveSubkeys_of_length_eq {bits : List Bool} (h : bits.length = 256) :
    ∃ k, deriveSubkeys bits = .ok k ∧
      ∀ (j : Fin 8) (b : Fin 32), k[j].getLsbD (31 - b.val) = bits.getD (32 * j.val + b.val) false := by
  refine ⟨_, if_pos h, fun j b => ?_⟩
  have hbit : 31 - b.val < 32 := by omega
  have hpos : 224 - 32 * j.val + (31 - b.val) < 256 := by omega
  have hrev : bits.length - 1 - (224 - 32 * j.val + (31 - b.val)) = 32 * j.val + b.val := by omega
  rw [Fin.getElem_fin, Vector.getElem_ofFn, BitVec.getLsbD_extractLsb', BitVec.getLsbD_ofNat, testBit_bitsToNat,
    List.getD_reverse _ (h ▸ hpos), hrev]
  simp [hbit, hpos]

/-- Settles O31, one lemma for each kind of length. -/
theorem deriveSubkeysPartitionsTheKey : Obligations.DeriveSubkeysPartitionsTheKey :=
  fun _ => ⟨deriveSubkeys_of_length_ne, deriveSubkeys_of_length_eq⟩

@[simp] theorem length_wordBits (w : Word) : (wordBits w).length = 32 := by simp [wordBits]

theorem getD_wordBits (w : Word) {b : Nat} (hb : b < 32) : (wordBits w).getD b false = w.getLsbD (31 - b) := by
  simp [wordBits, hb]

/-- Entry `32 j + b` of concatenated words is bit `31 - b` of word `j`. -/
theorem getD_flatMap_wordBits (ws : List Word) (j : Nat) {b : Nat} (hb : b < 32) :
    (ws.flatMap wordBits).getD (32 * j + b) false = (ws.getD j 0).getLsbD (31 - b) := by
  induction ws generalizing j with
  | nil => simp
  | cons w ws ih =>
    rw [List.flatMap_cons]
    cases j with
    | zero =>
      rw [List.getD_append _ _ _ _ (by rw [length_wordBits]; omega), Nat.mul_zero, Nat.zero_add, getD_wordBits w hb]
      rfl
    | succ j =>
      have hsub : 32 * (j + 1) + b - 32 = 32 * j + b := by omega
      rw [List.getD_append_right _ _ _ _ (by rw [length_wordBits]; omega), length_wordBits, hsub, ih,
        List.getD_cons_succ]

theorem length_keyMaterial (k : Vector Word 8) : (keyMaterial k).length = 256 := by
  simp [keyMaterial, List.length_flatMap]

theorem getD_keyMaterial (k : Vector Word 8) (j : Fin 8) (b : Fin 32) :
    (keyMaterial k).getD (32 * j.val + b.val) false = k[j].getLsbD (31 - b.val) := by
  rw [keyMaterial, getD_flatMap_wordBits _ _ b.isLt]
  simp

/-- Deriving undoes concatenating: the two agree on every bit of every word (R79, R90). -/
theorem deriveSubkeys_keyMaterial (k : Vector Word 8) : deriveSubkeys (keyMaterial k) = .ok k := by
  obtain ⟨k', hok, hbits⟩ := deriveSubkeys_of_length_eq (length_keyMaterial k)
  suffices k' = k by rw [hok, this]
  refine Vector.ext fun j hj => BitVec.eq_of_getLsbD_eq fun i hi => ?_
  have hbit := (hbits ⟨j, hj⟩ ⟨31 - i, by omega⟩).trans (getD_keyMaterial k ⟨j, hj⟩ ⟨31 - i, by omega⟩)
  rwa [show 31 - (31 - i) = i by omega] at hbit

/-- Settles O13: one KEYW, eight of them, and their order against BLKW. -/
theorem keywTakesKeyWordsInOrder : Obligations.KeywTakesKeyWordsInOrder := by
  refine ⟨fun w s => ⟨decode_keyw w, _, exec_keyw w s, takeKeyWord_k_getElem w s, nextKcnt_toNat _, rfl⟩,
    fun k s h0 => ⟨execAll_loadKey k h0, deriveSubkeys_keyMaterial k⟩, fun w v rest s => ?_⟩
  rw [execAll_cons_of_next (exec_keyw w s), execAll_cons_of_next (exec_blkw v _), takeBlockWord_takeKeyWord,
    execAll_cons_of_next (exec_blkw v s), execAll_cons_of_next (exec_keyw w _)]

/-- Settles O32, round by round and subkey by subkey. -/
theorem encryptOrderAscendsThriceThenDescends : Obligations.EncryptOrderAscendsThriceThenDescends :=
  ⟨by decide, by decide⟩

/-- Settles O33, round by round and subkey by subkey. -/
theorem decryptOrderAscendsOnceThenDescends : Obligations.DecryptOrderAscendsOnceThenDescends :=
  ⟨by decide, by decide⟩

end Sys2Proof.Machine
end

section
/-!
Add, substitute and rotate (spec/41_round_function.md rules R106 to R108): what each does to the bits of its operands.
-/

namespace Sys2Proof.Machine

/-! Add. -/

theorem addStep_toNat (right subkey : Word) :
    (addStep right subkey).toNat = (right.toNat + subkey.toNat) % 2 ^ 32 :=
  BitVec.toNat_add right subkey

theorem addStep_comm (right subkey : Word) : addStep right subkey = addStep subkey right :=
  BitVec.add_comm right subkey

/-- Settles O35. -/
theorem addWrapsModuloTwoToThe32 : Obligations.AddWrapsModuloTwoToThe32 :=
  fun right subkey => ⟨addStep_toNat right subkey, addStep_comm right subkey⟩

/-! Substitute. -/

/-- Of eight nibbles concatenated most significant first, nibble `i` is the one at position `i` (R81). The width is
spelled as the sum that the concatenation builds, so that the nibbles to either side can be taken off. -/
theorem nib_append (n : Fin 8 → Nibble) (i : Fin 8) :
    nib (n 0 ++ n 1 ++ n 2 ++ n 3 ++ n 4 ++ n 5 ++ n 6 ++ n 7) i = n i := by
  change BitVec.extractLsb' (n := 4 + 4 + 4 + 4 + 4 + 4 + 4 + 4) (28 - 4 * i.val) 4 _ = n i
  fin_cases i
  all_goals
    simp (disch := decide) only [BitVec.extractLsb'_append_eq_of_le, BitVec.extractLsb'_append_eq_of_add_le]
    exact BitVec.extractLsb'_eq_self

/-- Each lane of the substitution depends on its own nibble only (R107). -/
@[simp] theorem nib_substitute (sum : Word) (table : Table) (i : Fin 8) :
    nib (substitute sum table) i = table (nib sum i) i :=
  nib_append (fun j => table (nib sum j) j) i

/-- Settles O36: the lanes are nibbles. -/
theorem substituteActsLaneByLane : Obligations.SubstituteActsLaneByLane :=
  nib_substitute

/-! Rotate. -/

theorem rotl32_eq_rotateLeft (x : Word) {n : Nat} (hn : n < 32) : rotl32 x n = x.rotateLeft n := by
  rw [rotl32, BitVec.rotateLeft_def, Nat.mod_eq_of_lt hn]

/-- Rotation to the left by `n` moves bit `b` to bit `(b + n) mod 32`, also where that wraps (R14). -/
theorem getLsbD_rotl32 (x : Word) {n b : Nat} (hn : n < 32) (hb : b < 32) :
    (rotl32 x n).getLsbD ((b + n) % 32) = x.getLsbD b := by
  rw [rotl32_eq_rotateLeft x hn, BitVec.getLsbD_rotateLeft, Nat.mod_eq_of_lt hn]
  by_cases hwrap : b + n < 32
  · simp [Nat.mod_eq_of_lt hwrap, hwrap]
  · have hmod : (b + n) % 32 = b + n - 32 := by omega
    have hlow : b + n - 32 < n := by omega
    have hback : 32 - n + (b + n - 32) = b := by omega
    simp [hmod, hlow, hback]

/-- The low 21 bits move up and the high 11 re-enter at the bottom (R108). -/
theorem rotateStep_eq_append (x : Word) : rotateStep x = x.extractLsb' 0 21 ++ x.extractLsb' 21 11 := by
  refine BitVec.eq_of_getLsbD_eq fun i hi => ?_
  rw [rotateStep, rotl32_eq_rotateLeft x (by decide), BitVec.getLsbD_rotateLeft, BitVec.getLsbD_append]
  by_cases hlow : i < 11
  · simp [hlow]
  · have hhigh : i - 11 < 21 := by omega
    simp [hlow, hi, hhigh]

/-- Settles O37: the bit-by-bit form is that of any rotation, at the constant 11. -/
theorem rotateMovesBitsLeftByEleven : Obligations.RotateMovesBitsLeftByEleven :=
  fun x => ⟨fun b => getLsbD_rotl32 x (by decide) b.isLt, rotateStep_eq_append x⟩

end Sys2Proof.Machine
end

section
/-!
START, ENCRYPT and DECRYPT (spec/42_feistel_engine.md rules R125 to R128): what the checks answer, and the end state
that each answer leads to.
-/

namespace Sys2Proof.Machine

/-! The three commands are the one operation START. -/

theorem exec_encrypt (s : State) : exec .encrypt s = .next (startWhole Config.sbox 0 s) := rfl

theorem exec_decrypt (s : State) : exec .decrypt s = .next (startWhole Config.sbox 1 s) := rfl

theorem exec_start (d : Word) (s : State) : exec (.start d) s = .next (startWhole Config.sbox d s) := rfl

/-- Whichever of the three commands OPC = 3 selects, it runs START with its own code (R126, R127). -/
theorem exec_decodeStart (d : Word) (s : State) :
    exec (decodeStart d) s = .next (startWhole Config.sbox d s) := by
  unfold decodeStart
  split_ifs with h0 h1
  · rw [h0, exec_encrypt]
  · rw [h1, exec_decrypt]
  · exact exec_start d s

/-- A code of 2 or more stays in the general row START (R78). -/
theorem decodeStart_of_two_le {d : Word} (hd : 2 ≤ d.toNat) : decodeStart d = .start d := by
  have h0 : d ≠ 0 := by bv_omega
  have h1 : d ≠ 1 := by bv_omega
  rw [decodeStart, if_neg h0, if_neg h1]

theorem dirOfCode_of_ne {d : Word} (h0 : d ≠ 0) (h1 : d ≠ 1) : dirOfCode d = none := by
  rw [dirOfCode, if_neg h0, if_neg h1]

theorem dirOfCode_of_eq {d : Word} (h : ¬ (d ≠ 0 ∧ d ≠ 1)) :
    dirOfCode d = some (if d = 0 then .encrypt else .decrypt) := by
  by_cases h0 : d = 0
  · subst h0; rfl
  · obtain rfl : d = 1 := by_contra fun h1 => h ⟨h0, h1⟩
    rfl

/-! The end states. -/

/-- The state a START leaves whose checks failed with code `c`: all that R160 writes. -/
def rejectedStart (c : BitVec 2) (s : State) : State := { s with done := false, err := c, kcnt := 0, bcnt := 0 }

theorem startWhole_of_error {s : State} {d : Word} {e : StartError} (table : Table)
    (h : startChecks s.kcnt s.bcnt d = .error e) : startWhole table d s = rejectedStart e.code s := by
  rw [startWhole, h]
  rfl

theorem startWhole_of_kcnt_ne (table : Table) (d : Word) {s : State} (hk : s.kcnt ≠ 8) :
    startWhole table d s = rejectedStart 1 s :=
  startWhole_of_error table (e := .invalidKeyLength) (if_pos hk)

section KeyComplete

variable (table : Table) {d : Word} {s : State} (hk : s.kcnt = 8)
include hk

theorem startWhole_of_bcnt_ne (hb : s.bcnt ≠ 2) : startWhole table d s = rejectedStart 2 s :=
  startWhole_of_error table (e := .invalidBlockLength)
    (by rw [startChecks, if_neg (not_not_intro hk), if_pos hb])

theorem startWhole_of_dirOfCode_none (hb : s.bcnt = 2) (hd : dirOfCode d = none) :
    startWhole table d s = rejectedStart 3 s :=
  startWhole_of_error table (e := .invalidDirection) (by simp [startChecks, hk, hb, hd])

/-- The end state of an accepted START: the result, its halves still in R and L, and the flags (R124, R125). -/
theorem startWhole_of_dirOfCode_some (hb : s.bcnt = 2) {dir : Dir} (hd : dirOfCode d = some dir) :
    startWhole table d s =
      { s with
        done := true, err := 0, kcnt := 0, bcnt := 0, rnd := 32, phase := .idle, dirreg := dir
        out := gost (inputBlock s) s.k dir table
        r := highHalf (gost (inputBlock s) s.k dir table)
        l := lowHalf (gost (inputBlock s) s.k dir table) } := by
  have hok : startChecks s.kcnt s.bcnt d = .ok dir := by simp [startChecks, hk, hb, hd]
  rcases startWhole_cases table d s with ⟨e, he, -⟩ | ⟨dir', hdir', heq⟩
  · cases hok.symm.trans he
  · cases hok.symm.trans hdir'
    rw [heq]
    simp only [gost, inputBlock, highHalf_joinHalves, lowHalf_joinHalves]

/-- The end state of an accepted START in the form of R126 and R127: OUT is GOST, and R ‖ L. -/
theorem startWhole_result (hb : s.bcnt = 2) {dir : Dir} (hd : dirOfCode d = some dir) :
    (startWhole table d s).out = gost (inputBlock s) s.k dir table ∧
    (startWhole table d s).out = (startWhole table d s).r ++ (startWhole table d s).l ∧
    startWhole table d s =
      { s with
        done := true, err := 0, kcnt := 0, bcnt := 0, rnd := 32, phase := .idle, dirreg := dir
        out := (startWhole table d s).out
        l := (startWhole table d s).l
        r := (startWhole table d s).r } := by
  rw [startWhole_of_dirOfCode_some table hk hb hd]
  exact ⟨rfl, (joinHalves_halves _).symm, rfl⟩

end KeyComplete

/-- The two length errors come before the code is looked at (R162). -/
theorem startWhole_of_length_ne (table : Table) (d : Word) {s : State} (h : s.kcnt ≠ 8 ∨ s.bcnt ≠ 2) :
    startWhole table d s = rejectedStart (if s.kcnt = 8 then 2 else 1) s := by
  by_cases hk : s.kcnt = 8
  · rw [if_pos hk, startWhole_of_bcnt_ne table hk (h.resolve_left (not_not_intro hk))]
  · rw [if_neg hk, startWhole_of_kcnt_ne table d hk]

/-- Settles O16: the checks in their order, then the end state of an accepted START. -/
theorem startRejectsOrEndsWithTheResult : Obligations.StartRejectsOrEndsWithTheResult := by
  intro d s
  rw [decode_start, exec_decodeStart]
  congr 1
  split
  case isTrue hk => exact startWhole_of_kcnt_ne _ d hk
  case isFalse hk =>
    split
    case isTrue hb => exact startWhole_of_bcnt_ne _ (not_not.1 hk) hb
    case isFalse hb =>
      split
      case isTrue hd =>
        exact startWhole_of_dirOfCode_none _ (not_not.1 hk) (not_not.1 hb) (dirOfCode_of_ne hd.1 hd.2)
      case isFalse hd => exact startWhole_of_dirOfCode_some _ (not_not.1 hk) (not_not.1 hb) (dirOfCode_of_eq hd)

/-- Settles O17: ENCRYPT is START with the code of the encrypt direction. -/
theorem encryptWritesTheCiphertext : Obligations.EncryptWritesTheCiphertext :=
  ⟨decode_start 0, rfl, fun s hk hb => ⟨_, exec_encrypt s, startWhole_result _ hk hb rfl⟩,
    fun s h => (exec_encrypt s).trans (congrArg _ (startWhole_of_length_ne _ 0 h))⟩

/-- Settles O18: DECRYPT is START with the code of the decrypt direction. -/
theorem decryptWritesThePlaintext : Obligations.DecryptWritesThePlaintext :=
  ⟨decode_start 1, rfl, fun s hk hb => ⟨_, exec_decrypt s, startWhole_result _ hk hb rfl⟩,
    fun s h => (exec_decrypt s).trans (congrArg _ (startWhole_of_length_ne _ 1 h))⟩

/-- Settles O19: with a code of 2 or more the checks in their order leave only rejections. -/
theorem startWithInvalidCodeIsRejected : Obligations.StartWithInvalidCodeIsRejected := by
  intro d s hd
  have hcode : dirOfCode d = none := dirOfCode_of_ne (by bv_omega) (by bv_omega)
  refine ⟨(decode_start d).trans (decodeStart_of_two_le hd), ?_⟩
  rw [exec_start]
  congr 1
  split_ifs with hk hb
  · exact startWhole_of_kcnt_ne _ d hk
  · exact startWhole_of_bcnt_ne _ (not_not.1 hk) hb
  · exact startWhole_of_dirOfCode_none _ (not_not.1 hk) (not_not.1 hb) hcode

end Sys2Proof.Machine
end

section
/-!
The engine's own steps (spec/42_feistel_engine.md rules R122 to R124): one round, the output step, and the run of the
rounds that are left.
-/

namespace Sys2Proof.Machine

/-- In the rounds 0 to 31 the fetch is the entry of K that the order names (R98). -/
theorem fetchSubkey_of_lt (k : Vector Word 8) (d : Dir) {i : Nat} (hi : i < 32) :
    fetchSubkey k d i = k[(roundKeyOrder d)[i]] := by
  simp only [fetchSubkey, subkeyIndex, Nat.mod_eq_of_lt hi]

/-- The four steps of a round, combined on the left (R105, R109). -/
theorem roundFunction_eq (left right subkey : Word) (table : Table) :
    roundFunction left right subkey table = left ^^^ rotl32 (substitute (right + subkey) table) 11 :=
  BitVec.xor_comm _ _

section Run

variable {s : State} (hrst : s.rst = false) (hrun : s.phase = .run)
include hrst hrun

theorem step_eq_roundStep (hlt : s.rnd.toNat < 32) : step s = .next (roundStep Config.sbox s) :=
  (step_of_run hrst hrun).trans (if_pos hlt)

theorem step_eq_outputStep (h32 : s.rnd.toNat = 32) : step s = .next (outputStep s) := by
  rw [step_of_run hrst hrun, engineStep, if_neg (by omega), if_pos h32]

end Run

@[simp] theorem roundSteps_rst (table : Table) (n : Nat) (s : State) : (roundSteps table n s).rst = s.rst := by
  rw [roundSteps_frame]

@[simp] theorem roundSteps_phase (table : Table) (n : Nat) (s : State) :
    (roundSteps table n s).phase = s.phase := by
  rw [roundSteps_frame]

/-- Settles O43: the step is a round step. -/
theorem roundStepExchangesTheHalves : Obligations.RoundStepExchangesTheHalves := by
  intro s hrst hrun hlt
  refine ⟨_, step_eq_roundStep hrst hrun hlt, roundStep_l _ _, ?_, roundStep_rnd_toNat _ hlt, rfl⟩
  rw [roundStep_r, fetchSubkey_of_lt _ _ hlt, roundFunction_eq]

/-- Settles O44: the step is the output step, and OUT is R ‖ L. -/
theorem outputStepEmitsRightThenLeft : Obligations.OutputStepEmitsRightThenLeft := by
  intro s hrst hrun h32
  have hstep : step s = .next (outputStep s) := step_eq_outputStep hrst hrun (by rw [h32]; rfl)
  exact ⟨_, hstep, highHalf_joinHalves _ _, lowHalf_joinHalves _ _, rfl, rfl, rfl⟩

/-- Settles O45: the steps of a run are its round steps as long as RND stays within 32, and the step after the last
of them is the output step. -/
theorem runEndsAfterItsThirtyTwoRounds : Obligations.RunEndsAfterItsThirtyTwoRounds := by
  intro s hrst hrun hle
  refine ⟨fun n hn => ⟨roundSteps Config.sbox n s, ?_, ?_, ?_⟩, ?_⟩
  · exact runFor_roundSteps n 0 hrst hrun (by omega)
  · rw [roundSteps_phase, hrun]
  · exact roundSteps_rnd_toNat _ n (by omega)
  · have hlast : (roundSteps Config.sbox (32 - s.rnd.toNat) s).rnd.toNat = 32 := by
      rw [roundSteps_rnd_toNat _ _ (by omega)]; omega
    have hout := step_eq_outputStep (by rw [roundSteps_rst, hrst]) (by rw [roundSteps_phase, hrun]) hlast
    refine ⟨outputStep (roundSteps Config.sbox (32 - s.rnd.toNat) s), ?_, outputStep_phase _, outputStep_done _⟩
    rw [show 33 - s.rnd.toNat = (32 - s.rnd.toNat) + 1 by omega,
      runFor_roundSteps _ 1 hrst hrun (by omega), runFor_succ_of_next hout, runFor_zero]

end Sys2Proof.Machine
end

section
/-!
The host interface (spec/43_host_commands.md rules R140 to R142 and R147): NOP, the block words, the fields of STATUS,
and a command that waits at the port while a run goes on.
-/

namespace Sys2Proof.Machine

/-! A command offered during a run. -/

theorem roundStep_offer (table : Table) (c : Cmd) (s : State) :
    roundStep table (offer c s) = offer c (roundStep table s) := rfl

theorem outputStep_offer (c : Cmd) (s : State) : outputStep (offer c s) = offer c (outputStep s) := rfl

/-- No round looks at the port, so a command there waits through all of them (R147). -/
theorem roundSteps_offer (table : Table) (n : Nat) (c : Cmd) (s : State) :
    roundSteps table n (offer c s) = offer c (roundSteps table n s) := by
  induction n with
  | zero => rfl
  | succ n ih => rw [roundSteps_succ, roundSteps_succ, ih, roundStep_offer]

@[simp] theorem roundSteps_port (table : Table) (n : Nat) (s : State) : (roundSteps table n s).port = s.port := by
  rw [roundSteps_frame]

/-- The state that the run in progress ends in: the remaining rounds, then the output step (R123, R124). -/
def endOfRun (s : State) : State := outputStep (roundSteps Config.sbox (32 - s.rnd.toNat) s)

@[simp] theorem endOfRun_phase (s : State) : (endOfRun s).phase = .idle := rfl

@[simp] theorem endOfRun_port (s : State) : (endOfRun s).port = s.port := by
  rw [endOfRun, outputStep_port, roundSteps_port]

@[simp] theorem endOfRun_rst (s : State) : (endOfRun s).rst = s.rst := by
  rw [endOfRun, outputStep_rst, roundSteps_rst]

theorem endOfRun_offer (c : Cmd) (s : State) : endOfRun (offer c s) = offer c (endOfRun s) := by
  rw [endOfRun, offer_rnd, roundSteps_offer, outputStep_offer, endOfRun]

/-- A run ends after its remaining rounds and the output step, whatever waits at the port (R134). -/
theorem runFor_eq_endOfRun {s : State} (hrst : s.rst = false) (hrun : s.phase = .run) (hle : s.rnd.toNat ≤ 32) :
    runFor (33 - s.rnd.toNat) s = .next (endOfRun s) := by
  have hlast : (roundSteps Config.sbox (32 - s.rnd.toNat) s).rnd.toNat = 32 := by
    rw [roundSteps_rnd_toNat _ _ (by omega)]; omega
  have hout := step_eq_outputStep (by rw [roundSteps_rst, hrst]) (by rw [roundSteps_phase, hrun]) hlast
  rw [show 33 - s.rnd.toNat = (32 - s.rnd.toNat) + 1 by omega, runFor_roundSteps _ 1 hrst hrun (by omega),
    runFor_succ_of_next hout, runFor_zero, endOfRun]

/-- An idle engine takes the oldest word off the port and executes it (R34, R147). -/
theorem step_of_idle {s : State} {c : Cmd} {rest : List Cmd} (hrst : s.rst = false) (hidle : s.phase = .idle)
    (hport : s.port = c :: rest) : step s = exec (decode c) { s with port := rest } := by
  simp [step, hrst, hidle, hport]

/-- An idle engine with nothing else to do executes a command at the next step after it is offered (R147). -/
theorem step_offer_of_idle (c : Cmd) {s : State} (hrst : s.rst = false) (hidle : s.phase = .idle)
    (hport : s.port = []) : step (offer c s) = exec (decode c) s := by
  have htaken : { offer c s with port := [] } = s := by rw [← hport]; rfl
  rw [step_of_idle (s := offer c s) (rest := []) hrst hidle (by rw [offer_port, hport, List.nil_append]), htaken]

/-- Settles O11: a step of a run is a round or the output step, and neither of them looks at the port. -/
theorem commandIsHeldWhileRunning : Obligations.CommandIsHeldWhileRunning := by
  intro s c hrst hrun hle
  refine ⟨?_, endOfRun s, runFor_eq_endOfRun hrst hrun hle, ?_, endOfRun_phase s, fun hport => ?_⟩
  · rcases Nat.lt_or_eq_of_le hle with hlt | h32
    · exact ⟨_, step_eq_roundStep hrst hrun hlt, step_eq_roundStep (s := offer c s) hrst hrun hlt,
        rfl, rfl, rfl, rfl, rfl, rfl, rfl, rfl, rfl, fun _ => ⟨hrun, rfl, rfl⟩⟩
    · exact ⟨_, step_eq_outputStep hrst hrun h32, step_eq_outputStep (s := offer c s) hrst hrun h32,
        rfl, rfl, rfl, rfl, rfl, rfl, rfl, rfl, rfl, fun hlt => absurd h32 hlt.ne⟩
  · rw [← endOfRun_offer]
    exact runFor_eq_endOfRun (s := offer c s) hrst hrun hle
  · exact step_offer_of_idle c (by rw [endOfRun_rst, hrst]) (endOfRun_phase s) (by rw [endOfRun_port, hport])

/-! Block words. -/

/-- Two block words from BCNT = 0 replace BLKIN whole, the first in BLKIN[0] (R141). -/
theorem takeBlockWord_takeBlockWord (hi lo : Word) {s : State} (h0 : s.bcnt = 0) :
    takeBlockWord lo (takeBlockWord hi s) = { s with blkin := #v[hi, lo], bcnt := 2 } := by
  have hblk : (takeBlockWord lo (takeBlockWord hi s)).blkin = #v[hi, lo] := by
    refine Vector.ext fun n hn => ?_
    refine (takeBlockWord_blkin_getElem lo (takeBlockWord hi s) ⟨n, hn⟩).trans ?_
    rw [takeBlockWord_blkin_getElem, takeBlockWord_bcnt, h0]
    interval_cases n <;> rfl
  have hcnt : (takeBlockWord lo (takeBlockWord hi s)).bcnt = 2 := by
    rw [takeBlockWord_bcnt, takeBlockWord_bcnt, h0]; rfl
  rw [← hblk, ← hcnt]
  rfl

theorem execAll_loadBlk (hi lo : Word) {s : State} (h0 : s.bcnt = 0) :
    execAll (expand (.loadBlk hi lo)) s = .next { s with blkin := #v[hi, lo], bcnt := 2 } := by
  rw [← takeBlockWord_takeBlockWord hi lo h0, expand, execAll_cons_of_next (exec_blkw hi s),
    execAll_cons_of_next (exec_blkw lo _), execAll]

/-- Settles O14: one BLKW at any count, and two of them from BCNT = 0. -/
theorem blkwTakesBlockWordsInOrder : Obligations.BlkwTakesBlockWordsInOrder :=
  ⟨fun w s => ⟨decode_blkw w, _, exec_blkw w s, takeBlockWord_blkin_getElem w s, nextBcnt_toNat _, rfl⟩,
    fun hi lo _ h0 => ⟨_, execAll_loadBlk hi lo h0, rfl, rfl⟩⟩

/-! The status word. -/

theorem exec_rdst (arg : Word) (s : State) : exec (.rdst arg) s = .next (respond (statusWord s) s) := rfl

/-- The fields of STATUS do not overlap: the word is their concatenation, with the bits between them 0 (R75). -/
theorem statusWord_eq_append (s : State) :
    statusWord s = 0#22 ++ s.bcnt ++ s.kcnt ++ 0#1 ++ s.err ++ BitVec.ofBool s.done := by
  refine BitVec.eq_of_getLsbD_eq fun i hi => ?_
  simp only [statusWord, BitVec.getLsbD_or, BitVec.getLsbD_shiftLeft, BitVec.getLsbD_setWidth, BitVec.getLsbD_append]
  interval_cases i <;> simp

/-- Settles O21: the fields are read off the concatenation. -/
theorem rdstAnswersTheStatusFields : Obligations.RdstAnswersTheStatusFields := by
  intro arg s
  refine ⟨decode_rdst arg, statusWord s, exec_rdst arg s, ?_⟩
  rw [statusWord_eq_append]
  simp (disch := decide) only [BitVec.getLsbD_append, BitVec.extractLsb'_append_eq_of_le,
    BitVec.extractLsb'_append_eq_of_add_le]
  exact ⟨by simp, BitVec.extractLsb'_eq_self, by simp, BitVec.extractLsb'_eq_self, BitVec.extractLsb'_eq_self,
    BitVec.extractLsb'_eq_self⟩

/-! NOP. -/

theorem exec_nop (arg : Word) (s : State) : exec (.nop arg) s = .next s := rfl

/-- Settles O12. -/
theorem nopHasNoEffect : Obligations.NopHasNoEffect :=
  fun arg s => ⟨decode_nop arg, exec_nop arg s⟩

end Sys2Proof.Machine
end

section
/-!
A rejected START at the port (spec/60_exceptions.md rules R160 to R162): which error the checks report, and the step
that reports it.
-/

namespace Sys2Proof.Machine

/-- The codes that select a direction are 0 and 1 (R73). -/
theorem toNat_lt_two_of_dirOfCode {d : Word} {dir : Dir} (h : dirOfCode d = some dir) : d.toNat < 2 := by
  by_contra hge
  rw [dirOfCode_of_ne (by bv_omega) (by bv_omega)] at h
  cases h

/-- A failing precondition makes the checks report an error, and the counts say which of the two lengths it names, if
either (R156 to R158, R162). -/
theorem startChecks_eq_error {kc : BitVec 4} {bc : BitVec 2} {d : Word} (h : ¬ (kc = 8 ∧ bc = 2 ∧ d.toNat < 2)) :
    ∃ e, startChecks kc bc d = .error e ∧ (e = .invalidKeyLength ↔ kc ≠ 8) ∧
      (e = .invalidBlockLength ↔ kc = 8 ∧ bc ≠ 2) := by
  rcases startChecks_cases kc bc d with
    ⟨hk, he⟩ | ⟨hk, hb, he⟩ | ⟨hk, hb, -, -, he⟩ | ⟨hk, hb, dir, hd, -⟩
  · exact ⟨_, he, iff_of_true rfl hk, iff_of_false nofun fun ⟨hk8, _⟩ => hk hk8⟩
  · exact ⟨_, he, iff_of_false nofun (not_not_intro hk), iff_of_true rfl ⟨hk, hb⟩⟩
  · exact ⟨_, he, iff_of_false nofun (not_not_intro hk), iff_of_false nofun fun ⟨_, hb2⟩ => hb2 hb⟩
  · exact absurd ⟨hk, hb, toNat_lt_two_of_dirOfCode hd⟩ h

/-- An idle engine that takes a START whose checks fail ends the step with the rejection alone (R160, R161). -/
theorem step_of_startChecks_error {s : State} {d : Word} {rest : List Cmd} {e : StartError} (hrst : s.rst = false)
    (hidle : s.phase = .idle) (hport : s.port = (0x3#4 ++ d) :: rest)
    (he : startChecks s.kcnt s.bcnt d = .error e) :
    step s = .next (rejectedStart e.code { s with port := rest }) := by
  rw [step_of_idle hrst hidle hport, decode_start, exec_decodeStart,
    startWhole_of_error (s := { s with port := rest }) Config.sbox he]

/-- Settles O20: a rejection writes ERR, DONE and the two counters; every other register is as the engine held it. -/
theorem rejectionLeavesTheDataRegisters : Obligations.RejectionLeavesTheDataRegisters := by
  intro s d rest hrst hidle hport hfail
  obtain ⟨e, he, hkey, hblock⟩ := startChecks_eq_error hfail
  exact ⟨_, e, step_of_startChecks_error hrst hidle hport he, rfl, e.code_ne_zero, hkey, hblock,
    rfl, rfl, rfl, hidle, rfl, rfl, rfl, rfl, rfl, rfl, rfl, rfl, rfl⟩

end Sys2Proof.Machine
end

section
/-!
The step that follows an asserted reset (spec/70_reset_and_hazards.md rule R180).
-/

namespace Sys2Proof.Machine

/-- Reset comes before the run and before the port, so neither PHASE nor a waiting command matters (R180). -/
theorem step_of_rst {s : State} (hrst : s.rst = true) : step s = .next (resetEvent s) := by
  rw [step, if_pos hrst]

theorem step_assertReset (s : State) : step (assertReset s) = .next (resetEvent (assertReset s)) :=
  step_of_rst (assertReset_rst s)

/-- Settles O47: the step is the reset event, and the event gives each of the six registers its value. -/
theorem resetClearsTheControlRegisters : Obligations.ResetClearsTheControlRegisters := by
  intro s
  exact ⟨_, step_assertReset s, resetEvent_kcnt _, resetEvent_bcnt _, resetEvent_done _, resetEvent_err _,
    resetEvent_phase _, resetEvent_rnd _⟩

end Sys2Proof.Machine
end

section
/-!
Decoding an encoded command (spec/30_encoding.md rules R70, R71 and R78), and numbers too wide for the port (R61).
-/

namespace Sys2Proof

/-- RESERVED_8_F is the row of the opcodes 8 to F (R71). -/
theorem eight_le_opcodeOf_reserved8F (low : BitVec 3) (arg : Word) :
    8 ≤ (opcodeOf (.reserved8F low arg)).toNat := by
  change 8 ≤ (1#1 ++ low : BitVec 4).toNat
  revert low; decide

theorem low_of_one_append (low : BitVec 3) : (1#1 ++ low : BitVec 4).extractLsb' 0 3 = low := by
  revert low; decide

theorem wf_start_iff (d : Word) : (Instr.start d).wf = true ↔ d ≠ 0 ∧ d ≠ 1 := by
  rw [Instr.wf, Bool.and_eq_true, bne_iff_ne, bne_iff_ne]

/-- A well-formed START has a code that neither ENCRYPT nor DECRYPT claims (R78). -/
theorem decodeStart_of_wf {d : Word} (h : (Instr.start d).wf = true) : decodeStart d = .start d := by
  obtain ⟨h0, h1⟩ := (wf_start_iff d).1 h
  rw [decodeStart, if_neg h0, if_neg h1]

/-- Each row's decoding undoes its encoding (R71, R78). -/
theorem decode_encode {i : Instr} (h : i.wf = true) : decode (encode i) = i := by
  cases i with
  | nop arg => exact decode_nop arg
  | keyw w => exact decode_keyw w
  | blkw w => exact decode_blkw w
  | encrypt => exact decode_start 0
  | decrypt => exact decode_start 1
  | start d => exact (decode_start d).trans (decodeStart_of_wf h)
  | rdst arg => exact decode_rdst arg
  | rdoh arg => exact decode_rdoh arg
  | rdol arg => exact decode_rdol arg
  | reserved7 arg => exact decode_reserved7 arg
  | reserved8F low arg =>
    rw [encode, decode_reserved8F _ (eight_le_opcodeOf_reserved8F low arg), opcodeOf, low_of_one_append, argumentOf]

/-- Settles O2, row by row of the opcode table. -/
theorem decodeOfEncodeIsTheCommand : Obligations.DecodeOfEncodeIsTheCommand :=
  fun _ => decode_encode

theorem wf_decodeStart (d : Word) : (decodeStart d).wf = true := by
  unfold decodeStart
  split_ifs with h0 h1
  · rfl
  · rfl
  · exact (wf_start_iff d).2 ⟨h0, h1⟩

/-- The decoder leaves the codes 0 and 1 to ENCRYPT and DECRYPT, so what it answers is well-formed (R78). -/
theorem wf_decode (c : Cmd) : (decode c).wf = true := by
  rw [← opcOf_append_argOf c]
  generalize opcOf c = o, argOf c = a
  rcases opcode_cases o with rfl | rfl | rfl | rfl | rfl | rfl | rfl | rfl | h8
  case inr.inr.inr.inl => exact (congrArg Instr.wf (decode_start a)).trans (wf_decodeStart a)
  case inr.inr.inr.inr.inr.inr.inr.inr => rw [decode_reserved8F o h8]; rfl
  all_goals
    simp [decode_nop, decode_keyw, decode_blkw, decode_rdst, decode_rdoh, decode_rdol, decode_reserved7, Instr.wf]

/-- Settles O3. -/
theorem encodeOfDecodeIsTheWord : Obligations.EncodeOfDecodeIsTheWord :=
  fun c => ⟨wf_decode c, encode_decode c⟩

/-- The opcode of the command a word decodes to is the word's OPC (R71). -/
theorem opcodeOf_decode (c : Cmd) : opcodeOf (decode c) = opcOf c := by
  rw [← opcOf_append (opcodeOf (decode c)) (argumentOf (decode c))]
  exact congrArg opcOf (encode_decode c)

/-- Settles O1: each of the words is the encoding of the command beside it. -/
theorem specWordsDecodeToTheirCommands : Obligations.SpecWordsDecodeToTheirCommands :=
  ⟨decode_nop 0, decode_keyw 0x01234567, decode_blkw 0x89ABCDEF, decode_start 0, decode_start 1, decode_start 5,
    decode_rdst 0, decode_rdoh 0, decode_rdol 0, decode_reserved7 0, decode_reserved8F 0xF (by decide) 1⟩

/-- A number that fits the port is read as the word it is (R61). -/
theorem decodeNat_of_lt {w : Nat} (h : w < 2 ^ 36) : decodeNat w = .ok (decode (BitVec.ofNat 36 w)) := if_pos h

/-- Settles O5, on either side of the port's width. -/
theorem overWideNumbersAreRejectedByName : Obligations.OverWideNumbersAreRejectedByName :=
  fun _ => ⟨fun h => if_neg (Nat.not_lt.2 h), decodeNat_of_lt⟩

end Sys2Proof
end

section
/-!
The invariant (spec/10_state.md rules R24, R27, R31 and R75; 42_feistel_engine.md rules R121 to R125): every operation
of the engine keeps it, and under it no step is a fault.
-/

namespace Sys2Proof.Machine

/-- GOST of the input block is R ‖ L of the halves after the 32 rounds from BLKIN (R120, R121). -/
theorem gost_inputBlock (table : Table) (s : State) (d : Dir) :
    gost (inputBlock s) s.k d table =
      joinHalves (halvesAfter table s.k d (s.blkin[0], s.blkin[1]) 32).2
        (halvesAfter table s.k d (s.blkin[0], s.blkin[1]) 32).1 := by
  rw [gost, inputBlock, highHalf_joinHalves, lowHalf_joinHalves]

/-! States without a result, and what the invariant does not look at. -/

/-- Of an idle engine that vouches for no result, the invariant asks only for the range of RND (R27). -/
theorem State.Inv.of_idle_not_done {s : State} (hrnd : s.rnd.toNat ≤ 32) (hidle : s.phase = .idle)
    (hdone : s.done = false) : s.Inv where
  rnd_le := hrnd
  done_err h := by rw [hdone] at h; cases h
  done_out h := by rw [hdone] at h; cases h
  done_result h := by rw [hdone] at h; cases h
  run_clear h := by rw [hidle] at h; cases h
  run_halves h := by rw [hidle] at h; cases h

/-- The host's lists and the reset input are none of the registers that the invariant relates. -/
theorem State.Inv.withPort {s : State} (h : s.Inv) (p : List Cmd) : ({ s with port := p } : State).Inv :=
  ⟨h.rnd_le, h.done_err, h.done_out, h.done_result, h.run_clear, h.run_halves⟩

theorem State.Inv.respond {s : State} (h : s.Inv) (v : Word) : (respond v s).Inv :=
  ⟨h.rnd_le, h.done_err, h.done_out, h.done_result, h.run_clear, h.run_halves⟩

theorem State.reset_inv : State.reset.Inv := .of_idle_not_done (by decide) rfl rfl

theorem resetEvent_inv (s : State) : (resetEvent s).Inv := .of_idle_not_done (by simp) rfl rfl

/-! The steps of a run. -/

theorem State.Inv.done_of_run {s : State} (h : s.Inv) (hrun : s.phase = .run) : s.done = false := by
  obtain ⟨_, _, hdone, _⟩ := h.run_clear hrun
  exact hdone

theorem State.Inv.err_of_run {s : State} (h : s.Inv) (hrun : s.phase = .run) : s.err = 0 := by
  obtain ⟨_, _, _, herr⟩ := h.run_clear hrun
  exact herr

/-- A round moves the halves on by one, and RND with them (R122). -/
theorem State.Inv.roundStep {s : State} (h : s.Inv) (hrun : s.phase = .run) (hlt : s.rnd.toNat < 32) :
    (roundStep Config.sbox s).Inv where
  rnd_le := by rw [roundStep_rnd_toNat _ hlt]; exact hlt
  done_err := h.done_err
  done_out hdone := by rw [roundStep_done, h.done_of_run hrun] at hdone; cases hdone
  done_result hdone := by rw [roundStep_done, h.done_of_run hrun] at hdone; cases hdone
  run_clear := h.run_clear
  run_halves _ := by
    rw [roundStep_rnd_toNat _ hlt]
    simp only [roundStep_l, roundStep_r, roundStep_k, roundStep_dirreg, roundStep_blkin, halvesAfter,
      ← h.run_halves hrun]

/-- After 32 rounds the halves are those of GOST, and R ‖ L is put out (R124). -/
theorem State.Inv.outputStep {s : State} (h : s.Inv) (hrun : s.phase = .run) (h32 : s.rnd.toNat = 32) :
    (outputStep s).Inv where
  rnd_le := h.rnd_le
  done_err _ := h.err_of_run hrun
  done_out _ := ⟨rfl, BitVec.eq_of_toNat_eq h32, rfl⟩
  done_result _ _ _ := by
    have hhalves := h.run_halves hrun
    rw [h32] at hhalves
    refine Eq.trans ?_ (gost_inputBlock Config.sbox s s.dirreg).symm
    rw [← hhalves]
    rfl
  run_clear hphase := by cases hphase
  run_halves hphase := by cases hphase

/-! The commands of an idle engine. -/

section Idle

variable {s : State} (h : s.Inv) (hidle : s.phase = .idle)
include h hidle

/-- A key word is counted, so the result is no longer that of the words loaded. -/
theorem State.Inv.takeKeyWord (w : Word) : (takeKeyWord w s).Inv where
  rnd_le := h.rnd_le
  done_err := h.done_err
  done_out := h.done_out
  done_result _ hk := absurd hk (nextKcnt_ne_zero _)
  run_clear hrun := by cases hidle.symm.trans hrun
  run_halves hrun := by cases hidle.symm.trans hrun

theorem State.Inv.takeBlockWord (w : Word) : (takeBlockWord w s).Inv where
  rnd_le := h.rnd_le
  done_err := h.done_err
  done_out := h.done_out
  done_result _ _ hb := absurd hb (nextBcnt_ne_zero _)
  run_clear hrun := by cases hidle.symm.trans hrun
  run_halves hrun := by cases hidle.symm.trans hrun

/-- A rejected START leaves nothing to vouch for, an accepted one GOST of the registers it was run on (R125, R160). -/
theorem State.Inv.startWhole (d : Word) : (startWhole Config.sbox d s).Inv := by
  rcases startWhole_cases Config.sbox d s with ⟨_, _, e⟩ | ⟨_, _, e⟩ <;> rw [e]
  · exact .of_idle_not_done h.rnd_le hidle rfl
  · exact ⟨by simp, fun _ => rfl, fun _ => ⟨rfl, rfl, gost_inputBlock _ _ _⟩, fun _ _ _ => rfl, nofun, nofun⟩

theorem State.Inv.exec {i : Instr} {t : State} (hexec : exec i s = .next t) : t.Inv := by
  rcases exec_next_cases hexec with
    ⟨_, _, rfl⟩ | ⟨w, _, rfl⟩ | ⟨w, _, rfl⟩ | ⟨d, _, rfl⟩ | ⟨_, _, rfl⟩ | ⟨v, _, rfl⟩
  · exact h
  · exact h.takeKeyWord hidle w
  · exact h.takeBlockWord hidle w
  · exact h.startWhole hidle d
  · exact h.respond _
  · exact h.respond v

end Idle

theorem State.Inv.step {s t : State} (h : s.Inv) (hstep : step s = .next t) : t.Inv := by
  rcases step_next_cases hstep with
    ⟨_, rfl⟩ | ⟨_, hrun, hlt, rfl⟩ | ⟨_, hrun, h32, rfl⟩ | ⟨_, _, _, rfl⟩ | ⟨_, hidle, c, rest, _, hexec⟩
  · exact resetEvent_inv s
  · exact h.roundStep hrun hlt
  · exact h.outputStep hrun h32
  · exact h
  · exact (h.withPort rest).exec hidle hexec

/-- Settles O51, by what a step can do. -/
theorem everyStepKeepsTheInvariant : Obligations.EveryStepKeepsTheInvariant :=
  fun _ _ => State.Inv.step

/-- Settles O50. -/
theorem resetMeetsTheInvariant : Obligations.ResetMeetsTheInvariant := State.reset_inv

/-! No step of a state in good order is a fault. -/

/-- The one fault is that of a run with RND above 32 (R27, log 11). -/
theorem rnd_gt_of_step_fault {s : State} {f : Fault} (h : step s = .fault f) : 32 < s.rnd.toNat := by
  unfold Machine.step at h
  split at h
  · cases h
  · split at h
    · rcases engineStep_cases Config.sbox s with ⟨_, e⟩ | ⟨_, e⟩ | ⟨hgt, _⟩
      · rw [e] at h; cases h
      · rw [e] at h; cases h
      · exact hgt
    · split at h
      · cases h
      · exact absurd h (exec_ne_fault _ _ f)

theorem State.Inv.step_faultless {s : State} (h : s.Inv) : Faultless (Machine.step s) :=
  fun _ hf => absurd h.rnd_le (Nat.not_le.2 (rnd_gt_of_step_fault hf))

theorem State.Inv.runFor_faultless {s : State} (h : s.Inv) (n : Nat) : Faultless (runFor n s) := by
  induction n generalizing s with
  | zero => exact nofun
  | succ n ih =>
    rw [runFor_succ]
    cases hstep : Machine.step s with
    | next t => exact ih (h.step hstep)
    | fault f => exact absurd hstep (h.step_faultless f)
    | refused x => exact nofun

/-- Settles O52: the invariant holds at reset, whatever stands at the port, and along every run. -/
theorem stepNeverFaults : Obligations.StepNeverFaults :=
  ⟨fun _ => State.Inv.step_faultless, fun p => (State.reset_inv.withPort p).runFor_faultless⟩

end Sys2Proof.Machine
end

section
/-!
The round function and the network in both directions (spec/41_round_function.md rules R111 and R112; 40_key_schedule.md
rules R96 and R97; 42_feistel_engine.md rules R130 and R132).
-/

namespace Sys2Proof.Machine

/-! The round function. -/

/-- The combine is an exclusive or, which undoes itself (R111). -/
@[simp] theorem roundFunction_roundFunction (left right subkey : Word) (table : Table) :
    roundFunction (roundFunction left right subkey table) right subkey table = left := by
  rw [roundFunction, roundFunction, ← BitVec.xor_assoc, BitVec.xor_self, BitVec.zero_xor]

theorem roundFunction_congr_sum {right right' subkey subkey' : Word} (h : right + subkey = right' + subkey')
    (left : Word) (table : Table) :
    roundFunction left right subkey table = roundFunction left right' subkey' table := by
  rw [roundFunction_eq, roundFunction_eq, h]

/-- Settles O38. -/
theorem roundFunctionIsItsOwnInverse : Obligations.RoundFunctionIsItsOwnInverse :=
  fun left right subkey table => ⟨rfl, roundFunction_roundFunction left right subkey table,
    fun _ _ h => roundFunction_congr_sum h left table⟩

/-- Every nibble of the zero word selects row 0 (R107). -/
theorem substitute_zero (table : Table) : substitute 0 table =
    table 0 0 ++ table 0 1 ++ table 0 2 ++ table 0 3 ++ table 0 4 ++ table 0 5 ++ table 0 6 ++ table 0 7 := by
  have hnib (i : Fin 8) : nib 0 i = 0 := BitVec.extractLsb'_zero
  simp only [substitute, hnib]

/-- Settles O39: with a zero sum the table answers its row 0, and a zero left half combines to nothing. -/
theorem zeroOperandsGiveRowZeroRotated : Obligations.ZeroOperandsGiveRowZeroRotated := by
  intro table
  rw [roundFunction_eq, add_zero, substitute_zero]
  exact BitVec.zero_xor

/-! The two orders. -/

/-- Round by round the decrypt order is the encrypt order read from its end (R96). -/
theorem roundKeyOrder_decrypt (i : Fin 32) :
    (roundKeyOrder .decrypt)[i] = (roundKeyOrder .encrypt)[31 - i.val] := by
  revert i; decide

theorem kidx_eq_roundKeyOrder (d : Dir) (i : Fin 32) : kidx d i.val = (roundKeyOrder d)[i] := by
  cases d with
  | encrypt => revert i; decide
  | decrypt => revert i; decide

/-- Settles O34, over the 32 rounds. -/
theorem ordersMirrorAndIndexRegisterAgrees : Obligations.OrdersMirrorAndIndexRegisterAgrees :=
  ⟨roundKeyOrder_decrypt, kidx_eq_roundKeyOrder⟩

/-- The other direction. -/
def opposite : Dir → Dir
  | .encrypt => .decrypt
  | .decrypt => .encrypt

/-- A round of one direction uses the subkey of the mirrored round of the other (R96). -/
theorem fetchSubkey_opposite (k : Vector Word 8) (d : Dir) {i : Nat} (hi : i < 32) :
    fetchSubkey k (opposite d) i = fetchSubkey k d (31 - i) := by
  rw [fetchSubkey_of_lt k _ hi, fetchSubkey_of_lt k _ (by omega)]
  congr 1
  cases d with
  | encrypt => exact roundKeyOrder_decrypt ⟨i, hi⟩
  | decrypt =>
    have hmirror := roundKeyOrder_decrypt ⟨31 - i, by omega⟩
    simp only [show 31 - (31 - i) = i by omega] at hmirror
    exact hmirror.symm

/-! The network. -/

/-- A round undoes the round it mirrors, so from the exchanged final halves the run of the opposite direction goes back
through the halves of the run, exchanged (R130). -/
theorem halvesAfter_opposite (k : Vector Word 8) (table : Table) (d : Dir) (start : Word × Word) {j : Nat}
    (hj : j ≤ 32) :
    halvesAfter table k (opposite d) (halvesAfter table k d start 32).swap j =
      (halvesAfter table k d start (32 - j)).swap := by
  induction j with
  | zero => rfl
  | succ j ih =>
    have hlast : 32 - j = 31 - j + 1 := by omega
    rw [halvesAfter, ih (by omega), fetchSubkey_opposite k d (by omega), hlast, halvesAfter,
      show 32 - (j + 1) = 31 - j by omega]
    exact Prod.ext rfl (roundFunction_roundFunction _ _ _ _)

/-- Settles O41: the opposite of encrypt is decrypt. -/
theorem decryptRetracesEncryptBackwards : Obligations.DecryptRetracesEncryptBackwards :=
  fun k table start _ => halvesAfter_opposite k table .encrypt start

/-- The output R ‖ L hands the final halves on exchanged (R124). -/
theorem halves_gost (b : Block) (k : Vector Word 8) (d : Dir) (table : Table) :
    (highHalf (gost b k d table), lowHalf (gost b k d table)) =
      (halvesAfter table k d (highHalf b, lowHalf b) 32).swap := by
  rw [gost, highHalf_joinHalves, lowHalf_joinHalves, Prod.swap]

/-- From the exchanged final halves the opposite direction goes all the way back (R130). -/
theorem gost_gost_opposite (b : Block) (k : Vector Word 8) (d : Dir) (table : Table) :
    gost (gost b k d table) k (opposite d) table = b := by
  rw [gost, halves_gost, halvesAfter_opposite k table d _ (Nat.le_refl 32)]
  exact joinHalves_halves b

/-- Settles O40: each direction is the opposite of the other. -/
theorem roundTripForEveryTable : Obligations.RoundTripForEveryTable :=
  fun b k table => ⟨gost_gost_opposite b k .encrypt table, gost_gost_opposite b k .decrypt table⟩

/-- The halves depend on the direction only through the subkeys that it fetches (R122). -/
theorem halvesAfter_congr {k : Vector Word 8} {d d' : Dir} (h : ∀ i, fetchSubkey k d i = fetchSubkey k d' i)
    (table : Table) (start : Word × Word) (n : Nat) :
    halvesAfter table k d start n = halvesAfter table k d' start n := by
  induction n with
  | zero => rfl
  | succ n ih => rw [halvesAfter, halvesAfter, ih, h]

/-- Settles O42: of eight equal subkeys every order fetches the same. -/
theorem equalSubkeysMakeDirectionsCoincide : Obligations.EqualSubkeysMakeDirectionsCoincide := by
  intro k b table hk
  rw [gost, gost, halvesAfter_congr fun i => hk (subkeyIndex .encrypt i) (subkeyIndex .decrypt i)]

end Sys2Proof.Machine
end

section
/-!
What the commands answer and what they leave alone (spec/10_state.md section 7; 43_host_commands.md rules R143 to R148).
-/

namespace Sys2Proof.Machine

/-! The reads of the result. -/

theorem exec_rdoh (arg : Word) (s : State) :
    exec (.rdoh arg) s = .next (respond (highHalf (readableResult s)) s) := rfl

theorem exec_rdol (arg : Word) (s : State) :
    exec (.rdol arg) s = .next (respond (lowHalf (readableResult s)) s) := rfl

/-- Settles O22: with DONE = 1 the readable block is OUT. -/
theorem resultReadsAnswerTheHalves : Obligations.ResultReadsAnswerTheHalves := by
  intro arg s hdone
  rw [exec_rdoh, exec_rdol, readableResult_of_done hdone]
  exact ⟨rfl, rfl, decode_rdoh arg, decode_rdol arg⟩

/-- Settles O23: the word is a half of the readable block, whatever that is. -/
theorem resultReadsWithoutResultAnswerSomeWord : Obligations.ResultReadsWithoutResultAnswerSomeWord :=
  fun arg s _ => ⟨⟨_, exec_rdoh arg s⟩, ⟨_, exec_rdol arg s⟩⟩

theorem respond_respond (v w : Word) (s : State) :
    respond w (respond v s) = { s with responses := s.responses ++ [v, w] } := by
  simp [respond]

/-- A command that answers `v` before and after it has answered `v`, answers it twice (R66). -/
theorem execAll_pair_of_respond {i j : Instr} {v : Word} {s : State} (hi : exec i s = .next (respond v s))
    (hj : exec j (respond v s) = .next (respond v (respond v s))) :
    execAll [i, j] s = .next { s with responses := s.responses ++ [v, v] } := by
  rw [execAll_cons_of_next hi, execAll_cons_of_next hj, execAll, respond_respond]

/-- Settles O24: a response is none of the registers that a read reads. -/
theorem readsAreIdempotent : Obligations.ReadsAreIdempotent := fun a b s =>
  ⟨⟨_, execAll_pair_of_respond (exec_rdst a s) (exec_rdst b _)⟩,
    ⟨_, execAll_pair_of_respond (exec_rdoh a s) (exec_rdoh b _)⟩,
    ⟨_, execAll_pair_of_respond (exec_rdol a s) (exec_rdol b _)⟩⟩

/-- Settles O25: what these four do is said without ARG. -/
theorem ignoredArgumentsChangeNothing : Obligations.IgnoredArgumentsChangeNothing := by
  intro a b s
  simp only [decode_nop, decode_rdst, decode_rdoh, decode_rdol]
  exact ⟨rfl, rfl, rfl, rfl⟩

/-! Reserved opcodes. -/

/-- The opcodes 7 to F are refused by name (R145). -/
theorem exec_of_seven_le {i : Instr} (h : 7 ≤ (opcodeOf i).toNat) (s : State) :
    exec i s = .refused (.reservedOpcode (opcodeOf i)) := by
  cases i with
  | reserved7 arg => rfl
  | reserved8F low arg => rfl
  | _ => simp [opcodeOf] at h

/-- Every command below opcode 7 completes (R63). -/
theorem exec_of_lt_seven {i : Instr} (h : (opcodeOf i).toNat < 7) (s : State) : ∃ t, exec i s = .next t := by
  cases i with
  | reserved7 arg => simp [opcodeOf] at h
  | reserved8F low arg =>
    have hopc := eight_le_opcodeOf_reserved8F low arg
    omega
  | _ => exact ⟨_, rfl⟩

/-- Settles O26. -/
theorem reservedOpcodesAreRefused : Obligations.ReservedOpcodesAreRefused := by
  refine ⟨fun _ _ => rfl, fun _ _ _ => rfl, fun s c rest hrst hidle hport hopc => ?_, fun c s hopc => ?_⟩
  · rw [← opcodeOf_decode] at hopc ⊢
    rw [step_of_idle hrst hidle hport, exec_of_seven_le hopc]
  · rw [← opcodeOf_decode] at hopc
    exact exec_of_lt_seven hopc s

/-! What a command writes. -/

@[simp] theorem startWhole_blkin (table : Table) (d : Word) (s : State) :
    (startWhole table d s).blkin = s.blkin := by
  rcases startWhole_cases table d s with ⟨_, _, e⟩ | ⟨_, _, e⟩ <;> rw [e]

@[simp] theorem startWhole_responses (table : Table) (d : Word) (s : State) :
    (startWhole table d s).responses = s.responses := by
  rcases startWhole_cases table d s with ⟨_, _, e⟩ | ⟨_, _, e⟩ <;> rw [e]

/-- ENCRYPT, DECRYPT and START d are the commands of OPC 3 (R71). -/
theorem opcodeOf_of_start {i : Instr} {d : Word} (h : i = .encrypt ∧ d = 0 ∨ i = .decrypt ∧ d = 1 ∨ i = .start d) :
    opcodeOf i = 3 := by
  rcases h with ⟨rfl, _⟩ | ⟨rfl, _⟩ | rfl <;> rfl

/-- A command other than START writes only the input registers, their counters and the responses (R39). -/
theorem exec_frame_of_ne_start {i : Instr} {s t : State} (h : exec i s = .next t) (hi : opcodeOf i ≠ 3) :
    t = { s with k := t.k, blkin := t.blkin, kcnt := t.kcnt, bcnt := t.bcnt, responses := t.responses } := by
  rcases exec_next_cases h with ⟨_, _, rfl⟩ | ⟨_, _, rfl⟩ | ⟨_, _, rfl⟩ | ⟨d, hd, _⟩ | ⟨_, _, rfl⟩ | ⟨_, _, rfl⟩
  case inr.inr.inr.inl => exact absurd (opcodeOf_of_start hd) hi
  all_goals rfl

/-- L, R, OUT, RND, DIRREG, PHASE, DONE and ERR stand as they did (R39). -/
def SameResultRegisters (s t : State) : Prop :=
  t.l = s.l ∧ t.r = s.r ∧ t.out = s.out ∧ t.rnd = s.rnd ∧ t.dirreg = s.dirreg ∧ t.phase = s.phase ∧
    t.done = s.done ∧ t.err = s.err

theorem exec_sameResultRegisters {i : Instr} {s t : State} (h : exec i s = .next t) (hi : opcodeOf i ≠ 3) :
    SameResultRegisters s t := by
  rw [exec_frame_of_ne_start h hi]
  exact ⟨rfl, rfl, rfl, rfl, rfl, rfl, rfl, rfl⟩

/-- The input registers and their counters: which command may write each (R39). -/
theorem exec_changes_input {i : Instr} {s t : State} (h : exec i s = .next t) :
    (t.blkin ≠ s.blkin → ∃ w, i = .blkw w) ∧
    (t.kcnt ≠ s.kcnt → (∃ w, i = .keyw w) ∨ opcodeOf i = 3) ∧
    (t.bcnt ≠ s.bcnt → (∃ w, i = .blkw w) ∨ opcodeOf i = 3) := by
  rcases exec_next_cases h with
    ⟨_, _, rfl⟩ | ⟨w, rfl, rfl⟩ | ⟨w, rfl, rfl⟩ | ⟨d, hd, rfl⟩ | ⟨_, _, rfl⟩ | ⟨_, _, rfl⟩
  case inr.inl => exact ⟨fun hne => absurd rfl hne, fun _ => .inl ⟨w, rfl⟩, fun hne => absurd rfl hne⟩
  case inr.inr.inl => exact ⟨fun _ => ⟨w, rfl⟩, fun hne => absurd rfl hne, fun _ => .inl ⟨w, rfl⟩⟩
  case inr.inr.inr.inl =>
    have hopc := opcodeOf_of_start hd
    exact ⟨fun hne => absurd (startWhole_blkin _ _ _) hne, fun _ => .inr hopc, fun _ => .inr hopc⟩
  all_goals exact ⟨fun hne => absurd rfl hne, fun hne => absurd rfl hne, fun hne => absurd rfl hne⟩

/-! What a command answers. -/

/-- The words a command answers, of the state that it finds (R142 to R144). -/
def answer (s : State) : Instr → List Word
  | .rdst _ => [statusWord s]
  | .rdoh _ => [highHalf (readableResult s)]
  | .rdol _ => [lowHalf (readableResult s)]
  | _ => []

theorem exec_responses {i : Instr} {s t : State} (h : exec i s = .next t) :
    t.responses = s.responses ++ answer s i := by
  rcases exec_next_cases h with
    ⟨_, rfl, rfl⟩ | ⟨_, rfl, rfl⟩ | ⟨_, rfl, rfl⟩ | ⟨d, hd, rfl⟩ | ⟨_, rfl, rfl⟩ |
      ⟨v, ⟨_, rfl, rfl⟩ | ⟨_, rfl, rfl⟩, rfl⟩
  case inr.inr.inr.inl =>
    rw [startWhole_responses]
    rcases hd with ⟨rfl, _⟩ | ⟨rfl, _⟩ | rfl <;> exact (List.append_nil _).symm
  case inr.inr.inr.inr.inl => rfl
  case inr.inr.inr.inr.inr.inl => rfl
  case inr.inr.inr.inr.inr.inr => rfl
  all_goals exact (List.append_nil _).symm

/-- Only the three reads answer (R71). -/
theorem opcodeOf_of_answer_ne_nil {s : State} {i : Instr} (h : answer s i ≠ []) :
    opcodeOf i = 4 ∨ opcodeOf i = 5 ∨ opcodeOf i = 6 := by
  cases i with
  | rdst _ => exact .inl rfl
  | rdoh _ => exact .inr (.inl rfl)
  | rdol _ => exact .inr (.inr rfl)
  | _ => exact absurd rfl h

/-- Settles O27, column by column of the access matrix. -/
theorem commandsWriteOnlyTheirRegisters : Obligations.CommandsWriteOnlyTheirRegisters := by
  intro i s t h
  obtain ⟨hblkin, hkcnt, hbcnt⟩ := exec_changes_input h
  obtain ⟨hport, hrst, _⟩ := exec_keeps h
  refine ⟨fun hk => ?_, hblkin, hkcnt, hbcnt, fun hne => ?_, fun hresp => ?_, hport, hrst⟩
  · obtain ⟨w, hw, _⟩ := exec_changes_k h hk
    exact ⟨w, hw⟩
  · by_contra hopc
    obtain ⟨hl, hr, hout, hrnd, hdir, hphase, hdone, herr⟩ := exec_sameResultRegisters h hopc
    simp [hl, hr, hout, hrnd, hdir, hphase, hdone, herr] at hne
  · refine opcodeOf_of_answer_ne_nil (s := s) fun hnil => hresp ?_
    rw [exec_responses h, hnil, List.append_nil]

/-- Settles O29: of what an idle engine does without reset, only a command from the port touches the flags, and that
command has OPC 3. -/
theorem flagsStayUntilTheNextStart : Obligations.FlagsStayUntilTheNextStart := by
  intro s t hstep hrst hidle hflags
  rcases step_next_cases hstep with
    ⟨hr, _⟩ | ⟨_, hrun, _⟩ | ⟨_, hrun, _⟩ | ⟨_, _, _, rfl⟩ | ⟨_, _, c, rest, hport, hexec⟩
  · cases hrst.symm.trans hr
  · cases hidle.symm.trans hrun
  · cases hidle.symm.trans hrun
  · exact absurd hflags (by simp)
  · have hopc : opcOf c = 3#4 := by
      rw [← opcodeOf_decode]
      by_contra hne
      obtain ⟨_, _, _, _, _, _, hdone, herr⟩ := exec_sameResultRegisters hexec hne
      exact hflags.elim (absurd hdone) (absurd herr)
    exact ⟨argOf c, rest, by rw [hport, ← hopc, opcOf_append_argOf]⟩

/-- An answer is made of DONE, ERR, the counters, OUT and the model's own count of resets (R148). -/
theorem answer_congr_hidden (i : Instr) (s : State) (k : Vector Word 8) (b : Vector Word 2) (l r : Word) (n : BitVec 6)
    (d : Dir) :
    answer { s with k := k, blkin := b, l := l, r := r, rnd := n, dirreg := d } i = answer s i := by
  cases i <;> rfl

/-- Settles O30. -/
theorem responsesDoNotReadHiddenRegisters : Obligations.ResponsesDoNotReadHiddenRegisters := by
  intro i s t t' k b l r n d h h'
  rw [exec_responses h, exec_responses h', answer_congr_hidden]

end Sys2Proof.Machine
end

section
/-!
The stream of commands at the port (spec/20_memory.md rules R63 and R64; 42_feistel_engine.md rules R134 and R135;
70_reset_and_hazards.md rules R181 and R183).
-/

namespace Sys2Proof.Machine

/-! One command at the port. -/

/-- Settles O7: the word at the head of the port decodes to the command it encodes. -/
theorem stepRunsTheDecodedCommand : Obligations.StepRunsTheDecodedCommand := by
  intro s i rest hrst hidle hwf hport
  rw [step_of_idle hrst hidle hport, decode_encode hwf]

/-- Settles O8. -/
theorem idleEngineWaitsForACommand : Obligations.IdleEngineWaitsForACommand := by
  intro s hrst hidle hport
  simp [step, hrst, hidle, hport]

/-- A word of 36 bits fits the port, so it is placed there (log 8). -/
theorem withFetchWord_toNat (s : State) (c : Cmd) :
    s.withFetchWord 36 c.toNat = { s with port := c :: s.port, phase := .idle, rst := false } := by
  have hfit : c.toNat % 2 ^ 36 = c.toNat := Nat.mod_eq_of_lt c.isLt
  rw [State.withFetchWord, hfit, decodeNat_of_lt c.isLt, BitVec.ofNat_toNat, BitVec.setWidth_eq]

/-- Settles O9: the placed word stands at the head of an idle engine's port. -/
theorem placedWordRunsNext : Obligations.PlacedWordRunsNext := by
  intro s c
  rw [withFetchWord_toNat, step_of_idle (c := c) (rest := s.port) rfl rfl rfl]

/-! Many commands at the port. -/

/-- Settles O10: a command neither reads nor writes the port, and leaves the engine ready for the next one. -/
theorem portStreamIsExecutedInOrder : Obligations.PortStreamIsExecutedInOrder := by
  intro is
  induction is with
  | nil =>
    intro s rest _ _ _ hport
    rw [execAll, ← show s.port = rest from hport]
    rfl
  | cons i is ih =>
    intro s rest hwf hrst hidle hport
    have hstep := stepRunsTheDecodedCommand s i (is.map encode ++ rest) hrst hidle (hwf i List.mem_cons_self) hport
    rw [List.length_cons, runFor_succ, hstep, execAll, exec_withPort, exec_withPort i s rest]
    cases hexec : exec i s with
    | next t =>
      obtain ⟨_, hrst', hidle'⟩ := exec_keeps hexec
      exact ih { t with port := is.map encode ++ rest } rest (fun j hj => hwf j (List.mem_cons_of_mem i hj))
        (hrst'.trans hrst) (hidle' hidle) rfl
    | fault f => rfl
    | refused x => rfl

/-- Settles O15: the stream of key words, begun at KCNT = 0. -/
theorem keywStreamCountsAndKeepsTheFirstEight : Obligations.KeywStreamCountsAndKeepsTheFirstEight := by
  intro ws s h0
  obtain ⟨t, hrun, hcount, hkey, hframe⟩ := execAll_map_keyw ws s
  rw [h0] at hcount
  refine ⟨t, hrun, by simpa using hcount, fun j => ?_, hframe⟩
  rw [hkey, h0]
  rfl

/-! After reset. -/

/-- The event clears every field of STATUS (R181). -/
theorem statusWord_resetEvent (s : State) : statusWord (resetEvent s) = 0 := by
  rw [statusWord, resetEvent_done, resetEvent_err, resetEvent_kcnt, resetEvent_bcnt]
  decide

theorem resetEvent_kcnt_ne_eight (s : State) : (resetEvent s).kcnt ≠ 8 := by
  rw [resetEvent_kcnt]
  decide

/-- Settles O49: the event clears KCNT, so the STATUS word is 0 and the first check of a START fails. -/
theorem firstCommandsAfterReset : Obligations.FirstCommandsAfterReset := by
  intro s
  refine ⟨_, step_assertReset s, rfl, fun arg => ?_, fun d => ?_⟩
  · rw [exec_rdst, statusWord_resetEvent]
    rfl
  · exact ⟨_, by rw [decode_start, exec_decodeStart, startWhole_of_kcnt_ne _ d (resetEvent_kcnt_ne_eight _)], rfl⟩

/-! The two readings of START. -/

theorem acceptStart_of_error {s : State} {d : Word} {e : StartError} (h : startChecks s.kcnt s.bcnt d = .error e) :
    acceptStart d s = rejectedStart e.code s := by
  rw [acceptStart, h]
  rfl

theorem acceptStart_of_ok {s : State} {d : Word} {dir : Dir} (h : startChecks s.kcnt s.bcnt d = .ok dir) :
    acceptStart d s = beginRun dir (consumeInvocation s) := by
  rw [acceptStart, h]

/-- The whole START is the run that the accepted one begins, taken to its end (R134, R135). -/
theorem startWhole_eq_endOfRun {s : State} {d : Word} {dir : Dir} (h : startChecks s.kcnt s.bcnt d = .ok dir) :
    startWhole Config.sbox d s = endOfRun (beginRun dir (consumeInvocation s)) := by
  rw [startWhole, h]
  rfl

/-- When the three preconditions hold the checks answer the direction (R125, R156 to R158). -/
theorem exists_startChecks_eq_ok {kc : BitVec 4} {bc : BitVec 2} {d : Word} (hk : kc = 8) (hb : bc = 2)
    (hd : d.toNat < 2) : ∃ dir, startChecks kc bc d = .ok dir := by
  have hcode : ¬ (d ≠ 0 ∧ d ≠ 1) := by bv_omega
  exact ⟨_, by rw [startChecks, if_neg (not_not_intro hk), if_neg (not_not_intro hb), dirOfCode_of_eq hcode]⟩

/-- Settles O46: by whether the preconditions hold. -/
theorem smallStepsReachTheBigStep : Obligations.SmallStepsReachTheBigStep := by
  intro s d hrst hidle
  rw [decode_start, exec_decodeStart]
  by_cases hpre : s.kcnt = 8 ∧ s.bcnt = 2 ∧ d.toNat < 2
  · obtain ⟨hk, hb, hd⟩ := hpre
    obtain ⟨dir, hok⟩ := exists_startChecks_eq_ok hk hb hd
    rw [acceptStart_of_ok hok, startWhole_eq_endOfRun hok]
    have hrun := runFor_eq_endOfRun (s := beginRun dir (consumeInvocation s)) hrst rfl (Nat.zero_le 32)
    exact .inl ⟨rfl, rfl, hk, hb, hd, hrun⟩
  · obtain ⟨e, he, _⟩ := startChecks_eq_error hpre
    rw [acceptStart_of_error he, startWhole_of_error Config.sbox he]
    exact .inr ⟨hidle, hpre, rfl⟩

end Sys2Proof.Machine
end

section
/-!
Whole invocations, on one engine and on several (spec/10_state.md rule R35; 20_memory.md rule R67; 30_encoding.md rule
R85; 42_feistel_engine.md rules R129 and R130).
-/

namespace Sys2Proof.Machine

/-! One call of `run` at the port. -/

/-- The state a START leaves whose checks passed with direction `dir`: all that R125 writes. -/
def acceptedStart (dir : Dir) (s : State) : State :=
  { s with
    done := true, err := 0, kcnt := 0, bcnt := 0, rnd := 32, phase := .idle, dirreg := dir
    out := gost (inputBlock s) s.k dir Config.sbox
    r := highHalf (gost (inputBlock s) s.k dir Config.sbox)
    l := lowHalf (gost (inputBlock s) s.k dir Config.sbox) }

theorem startWhole_eq_acceptedStart {s : State} {d : Word} {dir : Dir} (hk : s.kcnt = 8) (hb : s.bcnt = 2)
    (hd : dirOfCode d = some dir) : startWhole Config.sbox d s = acceptedStart dir s :=
  startWhole_of_dirOfCode_some Config.sbox hk hb hd

/-- ENCRYPT and DECRYPT start the direction they are named after (R85). -/
theorem execAll_startOf (d : Dir) {s : State} (hk : s.kcnt = 8) (hb : s.bcnt = 2) :
    execAll (expand (startOf d)) s = .next (acceptedStart d s) := by
  cases d with
  | encrypt =>
    rw [startOf, expand, execAll_cons_of_next (exec_encrypt s), startWhole_eq_acceptedStart hk hb rfl, execAll]
  | decrypt =>
    rw [startOf, expand, execAll_cons_of_next (exec_decrypt s), startWhole_eq_acceptedStart hk hb rfl, execAll]

/-- RDOUT answers the two halves of OUT (R85). -/
theorem execAll_rdOut {s : State} (hdone : s.done = true) :
    execAll (expand .rdOut) s =
      .next { s with responses := s.responses ++ [highHalf s.out, lowHalf s.out] } := by
  rw [expand, execAll_cons_of_next (exec_rdoh 0 s), execAll_cons_of_next (exec_rdol 0 _), execAll,
    readableResult_respond, readableResult_of_done hdone, respond_respond]

/-- An invocation from clear counters replaces K and BLKIN, runs the START on them, and answers OUT (R85, R183). -/
theorem execAll_invocation (k : Vector Word 8) (hi lo : Word) (d : Dir) {s : State} (hk : s.kcnt = 0)
    (hb : s.bcnt = 0) :
    execAll (invocation k hi lo d) s = .next
      { acceptedStart d { s with k := k, blkin := #v[hi, lo], kcnt := 8, bcnt := 2 } with
        responses := s.responses ++
          [highHalf (gost (hi ++ lo) k d Config.sbox), lowHalf (gost (hi ++ lo) k d Config.sbox)] } := by
  rw [invocation, List.append_assoc, List.append_assoc, execAll_append_of_next (execAll_loadKey k hk),
    execAll_append_of_next (execAll_loadBlk hi lo (s := { s with k := k, kcnt := 8 }) hb),
    execAll_append_of_next (execAll_startOf d rfl rfl), execAll_rdOut rfl]
  rfl

theorem wf_of_mem_invocation (k : Vector Word 8) (hi lo : Word) (d : Dir) :
    ∀ i ∈ invocation k hi lo d, i.wf = true := by
  cases d <;> simp [invocation, expand, startOf, Instr.wf]

theorem length_invocation (k : Vector Word 8) (hi lo : Word) (d : Dir) : (invocation k hi lo d).length = 13 := by
  cases d <;> rfl

/-- Settles O53: the thirteen steps execute the thirteen commands in order. -/
theorem invocationAnswersGost : Obligations.InvocationAnswersGost := by
  intro s k hi lo d hrst hidle hk hb hport
  have hrun := portStreamIsExecutedInOrder (invocation k hi lo d) s [] (wf_of_mem_invocation k hi lo d) hrst hidle
    (by rw [hport, List.append_nil])
  rw [length_invocation, execAll_invocation k hi lo d (s := { s with port := [] }) hk hb] at hrun
  exact ⟨_, hrun, rfl, rfl, rfl, rfl, rfl, rfl, rfl⟩

/-- Settles O54: the second engine is sent the two halves of the ciphertext, and decrypting undoes encrypting. -/
theorem roundTripAtThePort : Obligations.RoundTripAtThePort := by
  intro s s' k hi lo hrst hidle hk hb hport
  obtain ⟨t, hrun, hresp, _⟩ := invocationAnswersGost s k hi lo .encrypt hrst hidle hk hb hport
  refine ⟨t, _, _, hrun, hresp, fun hrst' hidle' hk' hb' hport' => ?_⟩
  obtain ⟨t', hrun', hresp', _⟩ := invocationAnswersGost s' k _ _ .decrypt hrst' hidle' hk' hb' hport'
  have hback : gost (joinHalves (highHalf (gost (hi ++ lo) k .encrypt Config.sbox))
      (lowHalf (gost (hi ++ lo) k .encrypt Config.sbox))) k .decrypt Config.sbox = joinHalves hi lo := by
    rw [joinHalves_halves]
    exact gost_gost_opposite (hi ++ lo) k .encrypt Config.sbox
  refine ⟨t', hrun', hresp'.trans ?_⟩
  rw [← joinHalves, hback, highHalf_joinHalves, lowHalf_joinHalves]

/-! Two engines that are sent the same words. -/

/-- The two engines have received the same key and block words since their counters were clear (R25, R26). -/
structure SameInput (s s' : State) : Prop where
  kcnt : s.kcnt = s'.kcnt
  bcnt : s.bcnt = s'.bcnt
  key : ∀ j : Fin 8, j.val < s.kcnt.toNat → s.k[j] = s'.k[j]
  block : ∀ n : Fin 2, n.val < s.bcnt.toNat → s.blkin[n] = s'.blkin[n]

namespace SameInput

variable {s s' : State}

theorem of_clear (hk : s.kcnt = 0) (hb : s.bcnt = 0) (hk' : s'.kcnt = 0) (hb' : s'.bcnt = 0) : SameInput s s' where
  kcnt := hk.trans hk'.symm
  bcnt := hb.trans hb'.symm
  key j hj := by rw [hk] at hj; exact absurd hj (Nat.not_lt_zero _)
  block n hn := by rw [hb] at hn; exact absurd hn (Nat.not_lt_zero _)

variable (h : SameInput s s')
include h

theorem takeKeyWord (w : Word) : SameInput (takeKeyWord w s) (takeKeyWord w s') where
  kcnt := congrArg nextKcnt h.kcnt
  bcnt := h.bcnt
  key j hj := by
    rw [takeKeyWord_kcnt, nextKcnt_toNat] at hj
    rw [takeKeyWord_k_getElem, takeKeyWord_k_getElem, ← h.kcnt]
    split_ifs with heq
    · rfl
    · exact h.key j (by omega)
  block := h.block

theorem takeBlockWord (w : Word) : SameInput (takeBlockWord w s) (takeBlockWord w s') where
  kcnt := h.kcnt
  bcnt := congrArg nextBcnt h.bcnt
  key := h.key
  block n hn := by
    rw [takeBlockWord_bcnt, nextBcnt_toNat] at hn
    rw [takeBlockWord_blkin_getElem, takeBlockWord_blkin_getElem, ← h.bcnt]
    split_ifs with heq
    · rfl
    · exact h.block n (by omega)

/-- Responses are none of what the engines received. -/
theorem respond (v v' : Word) : SameInput (respond v s) (respond v' s') :=
  ⟨h.kcnt, h.bcnt, h.key, h.block⟩

/-- A command that is neither reserved nor a START completes on both engines and keeps their inputs the same. -/
theorem exec {i : Instr} (hopc : (opcodeOf i).toNat < 7 ∧ opcodeOf i ≠ 3) :
    ∃ t t', exec i s = .next t ∧ exec i s' = .next t' ∧ SameInput t t' := by
  obtain ⟨hlt, hne⟩ := hopc
  cases i with
  | nop a => exact ⟨_, _, exec_nop a s, exec_nop a s', h⟩
  | keyw w => exact ⟨_, _, exec_keyw w s, exec_keyw w s', h.takeKeyWord w⟩
  | blkw w => exact ⟨_, _, exec_blkw w s, exec_blkw w s', h.takeBlockWord w⟩
  | rdst a => exact ⟨_, _, exec_rdst a s, exec_rdst a s', h.respond _ _⟩
  | rdoh a => exact ⟨_, _, exec_rdoh a s, exec_rdoh a s', h.respond _ _⟩
  | rdol a => exact ⟨_, _, exec_rdol a s, exec_rdol a s', h.respond _ _⟩
  | encrypt => exact absurd rfl hne
  | decrypt => exact absurd rfl hne
  | start d => exact absurd rfl hne
  | reserved7 a => simp [opcodeOf] at hlt
  | reserved8F low a =>
    have hopc := eight_le_opcodeOf_reserved8F low a
    omega

theorem execAll {is : List Instr} (his : ∀ i ∈ is, (opcodeOf i).toNat < 7 ∧ opcodeOf i ≠ 3) :
    ∃ t t', execAll is s = .next t ∧ execAll is s' = .next t' ∧ SameInput t t' := by
  induction is generalizing s s' with
  | nil => exact ⟨s, s', rfl, rfl, h⟩
  | cons i is ih =>
    obtain ⟨u, u', hu, hu', hsame⟩ := h.exec (his i List.mem_cons_self)
    rw [execAll_cons_of_next hu, execAll_cons_of_next hu']
    exact ih hsame fun j hj => his j (List.mem_cons_of_mem i hj)

/-- Eight key words received are the whole of K. -/
theorem k_eq (hk : s.kcnt = 8) : s.k = s'.k :=
  Vector.ext fun j hj => h.key ⟨j, hj⟩ (by rw [hk]; exact hj)

/-- Two block words received are the whole of BLKIN. -/
theorem blkin_eq (hb : s.bcnt = 2) : s.blkin = s'.blkin :=
  Vector.ext fun n hn => h.block ⟨n, hn⟩ (by rw [hb]; exact hn)

/-- The same START is rejected with the same error on both engines, or accepted with the same result (R35, R129). -/
theorem startWhole (d : Word) :
    (∃ c, startWhole Config.sbox d s = rejectedStart c s ∧ startWhole Config.sbox d s' = rejectedStart c s') ∨
    (∃ dir, startWhole Config.sbox d s = acceptedStart dir s ∧
      startWhole Config.sbox d s' = acceptedStart dir s' ∧ s.k = s'.k ∧ s.blkin = s'.blkin) := by
  have hchecks : startChecks s.kcnt s.bcnt d = startChecks s'.kcnt s'.bcnt d := by rw [h.kcnt, h.bcnt]
  by_cases hpre : s.kcnt = 8 ∧ s.bcnt = 2 ∧ d.toNat < 2
  · obtain ⟨hk, hb, hd⟩ := hpre
    have hcode : dirOfCode d = some (if d = 0 then .encrypt else .decrypt) := dirOfCode_of_eq (by bv_omega)
    exact .inr ⟨_, startWhole_eq_acceptedStart hk hb hcode,
      startWhole_eq_acceptedStart (h.kcnt ▸ hk) (h.bcnt ▸ hb) hcode, h.k_eq hk, h.blkin_eq hb⟩
  · obtain ⟨e, he, _⟩ := startChecks_eq_error hpre
    exact .inl ⟨e.code, startWhole_of_error _ he, startWhole_of_error _ (hchecks ▸ he)⟩

end SameInput

/-- An accepted START writes what K and BLKIN determine. -/
theorem acceptedStart_congr {s s' : State} (hk : s.k = s'.k) (hblk : s.blkin = s'.blkin) (dir : Dir) :
    acceptedStart dir s =
      { acceptedStart dir s' with port := s.port, responses := s.responses, rst := s.rst, draws := s.draws } := by
  simp only [acceptedStart, inputBlock, hk, hblk]

/-- Settles O55: from clear counters the two engines receive the same words, so the START finds the same input. -/
theorem noHiddenStateAcrossInvocations : Obligations.NoHiddenStateAcrossInvocations := by
  intro is d s s' his hk hb hk' hb'
  obtain ⟨u, u', hu, hu', hsame⟩ := (SameInput.of_clear hk hb hk' hb').execAll his
  refine ⟨startWhole Config.sbox d u, startWhole Config.sbox d u', ?_, ?_, ?_⟩
  · rw [execAll_append_of_next hu, decode_start, execAll_cons_of_next (exec_decodeStart d u), execAll]
  · rw [execAll_append_of_next hu', decode_start, execAll_cons_of_next (exec_decodeStart d u'), execAll]
  · rcases hsame.startWhole d with ⟨c, e, e'⟩ | ⟨dir, e, e', hkey, hblk⟩
    · rw [e, e']
      exact ⟨rfl, rfl, rfl, rfl, nofun⟩
    · rw [e, e', acceptedStart_congr hkey hblk]
      exact ⟨rfl, rfl, rfl, rfl, fun _ => ⟨rfl, rfl, rfl, rfl, rfl, rfl, rfl⟩⟩

/-! A system of engines. -/

/-- A schedule that begins with engine `e` completes when that engine's step does and the rest completes after it. -/
theorem runSchedule_cons_eq_next_iff (e : Fin Config.neng) (sched : List (Fin Config.neng)) (es es' : Engines) :
    runSchedule (e :: sched) es = .next es' ↔
      ∃ s, step es[e] = .next s ∧ runSchedule sched (es.set e s) = .next es' := by
  rw [runSchedule, stepEngine]
  cases step es[e] <;> simp

theorem runFor_succ_eq_next_iff (n : Nat) (s t : State) :
    runFor (n + 1) s = .next t ↔ ∃ u, step s = .next u ∧ runFor n u = .next t := by
  rw [runFor_succ]
  cases step s <;> simp

/-- One step of engine `a` and then `count` steps of each engine: engine `a` runs one step more, the others are where
they were (R67). -/
theorem forall_runFor_set_iff {a : Fin Config.neng} {s : State} {es es' : Engines} (hstep : step es[a] = .next s)
    (sched : List (Fin Config.neng)) :
    (∀ e : Fin Config.neng, runFor (sched.count e) (es.set a s)[e] = .next es'[e]) ↔
      ∀ e : Fin Config.neng, runFor ((a :: sched).count e) es[e] = .next es'[e] := by
  refine forall_congr' fun e => ?_
  by_cases hea : e = a
  · subst hea
    rw [List.count_cons_self, runFor_succ_of_next hstep]
    simp
  · have hval : a.val ≠ e.val := fun h => hea (Fin.ext h.symm)
    rw [List.count_cons_of_ne (Ne.symm hea)]
    simp [Vector.getElem_set_ne, hval]

/-- Settles O56: by induction on the schedule; its first step is the first step of the engine it names. -/
theorem enginesDoNotInterfere : Obligations.EnginesDoNotInterfere := by
  intro sched
  induction sched with
  | nil =>
    intro es es'
    rw [runSchedule, Host.Outcome.next.injEq]
    exact ⟨fun h e => by rw [h]; rfl, fun h => Vector.ext fun e he => Host.Outcome.next.inj (h ⟨e, he⟩)⟩
  | cons a sched ih =>
    intro es es'
    rw [runSchedule_cons_eq_next_iff]
    constructor
    · rintro ⟨s, hstep, hrest⟩
      exact (forall_runFor_set_iff hstep sched).1 ((ih _ _).1 hrest)
    · intro h
      have ha := h a
      rw [List.count_cons_self, runFor_succ_eq_next_iff] at ha
      obtain ⟨s, hstep, _⟩ := ha
      exact ⟨s, hstep, (ih _ _).2 ((forall_runFor_set_iff hstep sched).2 h)⟩

end Sys2Proof.Machine
end

section
/-!
A line of script (spec/30_encoding.md rule R84): the words the reader cuts it into, and the command it reads from them.
-/

namespace Sys2Proof.Machine

/-! Cutting a line into words. -/

/-- The text is a word: none of its characters ends a word or begins a comment, and there is at least one (R84). -/
def IsWord (text : List Char) : Prop := text ≠ [] ∧ ∀ c ∈ text, c ≠ ';' ∧ c ≠ ' ' ∧ c ≠ ','

/-- The text says nothing more after a word: it ends the line there (R84). -/
def EndsLine (text : List Char) : Prop := ∀ word, lineWords text word = lineWords [] word

theorem endsLine_nil : EndsLine [] := fun _ => rfl

theorem endsLine_comment (comment : List Char) : EndsLine (' ' :: ';' :: comment) := by
  intro word
  cases word with
  | nil => rfl
  | cons c word => rfl

/-- Characters that end no word are gathered one by one. -/
theorem lineWords_append {text : List Char} (h : ∀ c ∈ text, c ≠ ';' ∧ c ≠ ' ' ∧ c ≠ ',') (rest word : List Char) :
    lineWords (text ++ rest) word = lineWords rest (word ++ text) := by
  induction text generalizing word with
  | nil => rw [List.nil_append, List.append_nil]
  | cons c text ih =>
    obtain ⟨hsemi, hspace, hcomma⟩ := h c List.mem_cons_self
    rw [List.cons_append, lineWords, if_neg hsemi, if_neg (not_or.2 ⟨hspace, hcomma⟩),
      ih fun c hc => h c (List.mem_cons_of_mem _ hc), List.append_assoc, List.singleton_append]

theorem lineWords_nil_of_ne_nil {word : List Char} (h : word ≠ []) : lineWords [] word = [word] := by
  cases word with
  | nil => exact absurd rfl h
  | cons c word => rfl

section Line

variable {text rest : List Char} (h : IsWord text) (hrest : EndsLine rest)
include h hrest

theorem lineWords_of_one_word : lineWords (text ++ rest) [] = [text] := by
  rw [lineWords_append h.2, hrest, List.nil_append, lineWords_nil_of_ne_nil h.1]

theorem lineWords_of_two_words {operand : List Char} (hop : IsWord operand) :
    lineWords (text ++ [' '] ++ operand ++ rest) [] = [text, operand] := by
  rw [List.append_assoc, List.append_assoc, lineWords_append h.2, List.nil_append, List.singleton_append, lineWords,
    if_neg (by decide), if_pos (.inl rfl), if_neg h.1, lineWords_of_one_word hop hrest]

end Line

theorem isWord_operandText (w : Word) : IsWord (operandText w) := by
  refine ⟨List.cons_ne_nil _ _, fun c hc => ?_⟩
  rw [operandText, List.mem_append, List.mem_map] at hc
  rcases hc with hlead | ⟨i, _, rfl⟩
  · rcases List.mem_pair.1 hlead with rfl | rfl <;> decide
  · exact hexDigit_no_separator _

/-! Reading a line. -/

theorem readWords_keyw (w : Word) : readWords [['K', 'E', 'Y', 'W'], operandText w] = some [.keyw w] :=
  congrArg (Option.map fun v => [Instr.keyw v]) (operandValue_operandText w)

theorem readWords_blkw (w : Word) : readWords [['B', 'L', 'K', 'W'], operandText w] = some [.blkw w] :=
  congrArg (Option.map fun v => [Instr.blkw v]) (operandValue_operandText w)

theorem readWords_start (d : Word) :
    readWords [['S', 'T', 'A', 'R', 'T'], operandText d] = some [decodeStart d] :=
  congrArg (Option.map fun v => [decodeStart v]) (operandValue_operandText d)

/-- A mnemonic alone on its line. -/
theorem assembleLine_of_mnemonic {text rest : List Char} {i : Instr} (h : IsWord text) (hrest : EndsLine rest)
    (hread : readWords [text] = some [i]) : assembleLine (text ++ rest) = some [encode i] := by
  rw [assembleLine, lineWords_of_one_word h hrest, hread]
  rfl

/-- A mnemonic with its operand. -/
theorem assembleLine_of_operand {text rest : List Char} {w : Word} {i : Instr} (h : IsWord text)
    (hrest : EndsLine rest) (hread : readWords [text, operandText w] = some [i]) :
    assembleLine (text ++ [' '] ++ operandText w ++ rest) = some [encode i] := by
  rw [assembleLine, lineWords_of_two_words h hrest (isWord_operandText w), hread]
  rfl

/-- A script line, whatever ends it, is read as the command it is the line of, mnemonic by mnemonic (R84). -/
theorem assembleLine_scriptLine {i : Instr} {line rest : List Char} (hwf : i.wf = true)
    (hline : scriptLine i = some line) (hrest : EndsLine rest) :
    assembleLine (line ++ rest) = some [encode (scriptForm i)] := by
  cases i with
  | nop a => cases hline; exact assembleLine_of_mnemonic (by simp [IsWord]) hrest rfl
  | keyw w =>
    cases hline
    exact assembleLine_of_operand (text := ['K', 'E', 'Y', 'W']) (by simp [IsWord]) hrest (readWords_keyw w)
  | blkw w =>
    cases hline
    exact assembleLine_of_operand (text := ['B', 'L', 'K', 'W']) (by simp [IsWord]) hrest (readWords_blkw w)
  | encrypt => cases hline; exact assembleLine_of_mnemonic (by simp [IsWord]) hrest rfl
  | decrypt => cases hline; exact assembleLine_of_mnemonic (by simp [IsWord]) hrest rfl
  | start d =>
    cases hline
    have hread := readWords_start d
    rw [decodeStart_of_wf hwf] at hread
    exact assembleLine_of_operand (text := ['S', 'T', 'A', 'R', 'T']) (by simp [IsWord]) hrest hread
  | rdst a => cases hline; exact assembleLine_of_mnemonic (by simp [IsWord]) hrest rfl
  | rdoh a => cases hline; exact assembleLine_of_mnemonic (by simp [IsWord]) hrest rfl
  | rdol a => cases hline; exact assembleLine_of_mnemonic (by simp [IsWord]) hrest rfl
  | reserved7 a => cases hline
  | reserved8F low a => cases hline

/-- Settles O6: the line may end as it stands or in a comment. -/
theorem scriptLineAssemblesToItsWord : Obligations.ScriptLineAssemblesToItsWord := by
  intro i line comment hwf hline
  have hplain := assembleLine_scriptLine hwf hline endsLine_nil
  rw [List.append_nil] at hplain
  exact ⟨hplain, assembleLine_scriptLine hwf hline (endsLine_comment comment)⟩

end Sys2Proof.Machine
end
